-- ==== Sys2Proof/Word.lean ====
section
/-! DEFINITION. The instance parameter `W` (00_scope.md R2, R7, R8) and the word it fixes (R9).

One value of `W` fixes the arithmetic modulus, the Mixer and the a-update set (R8). The model makes it a type with
two values, so that every operation is resolved to one width once and never rechecks it per word (40_word.md R111). -/

namespace Sys2Proof

/-- The two variants of the block: ISAAC-32 (`W = 32`) and ISAAC-64 (`W = 64`) (00_scope.md R2). -/
inductive Width where
  | w32
  | w64
  deriving DecidableEq, Repr

/-- `W`, the bits of one word (R7). -/
@[reducible] def Width.bits : Width → Nat
  | .w32 => 32
  | .w64 => 64

/-- `B = W/8`, the bytes of one word (R7). -/
def Width.bytes : Width → Nat
  | .w32 => 4
  | .w64 => 8

/-- `L = log2(B)` (R7). -/
def Width.logBytes : Width → Nat
  | .w32 => 2
  | .w64 => 3

/-- The identity string of an instance (R3). -/
def Width.identity : Width → String
  | .w32 => "ISAAC-32"
  | .w64 => "ISAAC-64"

/-- A word: an unsigned integer below `2^W` (R9). The operators `+ - ^^^ ~~~ <<< >>> &&&` of `BitVec` are the
wrapping and bitwise operators of R10 and 40_word.md R100 to R107; both shifts are logical. -/
abbrev Word (w : Width) := BitVec w.bits

/-- A 32-bit command word, the same width for both values of `W` (30_encoding.md R72; `CMDW` of R7). -/
abbrev CommandWord := BitVec 32

end Sys2Proof
end

