-- ==== Sys2Proof/Config.lean ====
section
/-! DEFINITION. What an instance fixes, the parameters the spec leaves open, and the free values. -/

namespace Sys2Proof

/-- The width of the instance that `Machine.State.reset` describes. DESIGN CHOICE (log entry 1): the spec's parameter
`W` is 32 or 64 (00_scope.md R7); the interface asks for one reset state, and this model gives it for ISAAC-32.
`Machine.State.resetOf` is the reset state of either variant, and every operation is defined for both. -/
def Config.width : Width := .w32

/-- `LAT_SEED`, the latency of SEED in cycles: `OPEN`, and no rule depends on it (R7, 70_reset_and_hazards.md R239). -/
opaque Config.latSeed : Nat

/-- `LAT_REFILL`, the latency of REFILL in cycles: `OPEN`, as above. -/
opaque Config.latRefill : Nat

/-- `LAT_NEXT`, the latency of NEXTWORD in cycles: `OPEN`, as above. -/
opaque Config.latNext : Nat

/-! Free values: what the block's storage holds when power comes back. Losing power loses the state
(60_exceptions.md R217) and the spec says no more, so nothing constrains these constants. The argument `n` counts the
power losses of the run, so that two losses need not leave the same contents (log entry 6). -/

/-- Word `i` of the working memory after power loss `n`. -/
opaque Config.lostMemory (w : Width) (n : Nat) : Vector (Word w) 256

/-- The output block after power loss `n`. -/
opaque Config.lostOutput (w : Width) (n : Nat) : Vector (Word w) 256

/-- Register `a` after power loss `n`. -/
opaque Config.lostA (w : Width) (n : Nat) : Word w

/-- Register `b` after power loss `n`. -/
opaque Config.lostB (w : Width) (n : Nat) : Word w

/-- Register `c` after power loss `n`. -/
opaque Config.lostC (w : Width) (n : Nat) : Word w

/-- The cursor after power loss `n`: some value of its range. -/
opaque Config.lostCursor (n : Nat) : Fin 257

end Sys2Proof
end

