-- ==== Sys2Proof/Syntax.lean ====
section
/-! DEFINITION. The three host commands (30_encoding.md R70 to R73), one constructor per row of
spec/opcode_table.json. The payload of a command is no part of its command word; it stands in the transaction. -/

namespace Sys2Proof

/-- A decoded command word. -/
inductive Instr where
  /-- SEED with `MLEN` memory words and `RLEN` register words in its payload (R74, 41_seeder.md R120). -/
  | seed (mlen rlen : Nat)
  /-- REFILL (43_refiller.md R160). -/
  | refill
  /-- NEXTWORD (44_extractor.md R190). -/
  | nextword
  deriving DecidableEq, Repr

end Sys2Proof
end

