-- ==== Sys2Proof/WellFormed.lean ====
section
/-! DEFINITION. Which commands a command word can carry (30_encoding.md R72, R74, R77). -/

namespace Sys2Proof

/-- `MLEN` is a legal memory-word count: 0..256; 257..511 are reserved (R72, R77). -/
abbrev memoryCountLegal (mlen : Nat) : Prop := mlen ≤ 256

/-- `RLEN` fits its four-bit field: 0..15 (R74). Counts other than 0 and 8 are encodable on purpose: they decode,
and the command itself answers INVALID_SEED_CONFIGURATION (60_exceptions.md R204). -/
abbrev registerCountEncodable (rlen : Nat) : Prop := rlen ≤ 15

/-- A command that some command word stands for. -/
def Instr.wellFormed : Instr → Bool
  | .seed mlen rlen => decide (memoryCountLegal mlen) && decide (registerCountEncodable rlen)
  | .refill => true
  | .nextword => true

end Sys2Proof
end

