-- ==== Sys2Proof/Decode.lean ====
section
/-! DEFINITION. The command word and its one format `CMD32` (30_encoding.md R72 to R78), read and written.

The unit the block receives is a whole 32-bit command word: how it travels as bytes is the open parameter
`PORT_MAPPING` (R71), so the decoder takes the word. -/

namespace Sys2Proof

/-- Why a command word is illegal (R77). The three reasons give one and the same status, ILLEGAL_COMMAND; their
names are the model's (DESIGN CHOICE, safe: log entry 12). -/
inductive Illegal where
  /-- `OPC` is 0x0 or 0x4 to 0xF (R73). -/
  | reservedOpcode
  /-- A bit the command's row says must be 0 is set (R74 to R76). -/
  | reservedBitSet
  /-- SEED with `MLEN` in 257..511 (R77). -/
  | memoryCountReserved
  deriving DecidableEq, Repr

/-- `OPC = cmd[3:0]` (R72). -/
def opcodeField (cmd : CommandWord) : BitVec 4 := cmd.extractLsb' 0 4

/-- `MLEN = cmd[12:4]`, a zero-extended count (R74, R82). -/
def memoryCountField (cmd : CommandWord) : Nat := (cmd.extractLsb' 4 9).toNat

/-- `RLEN = cmd[16:13]`, a zero-extended count (R74, R82). -/
def registerCountField (cmd : CommandWord) : Nat := (cmd.extractLsb' 13 4).toNat

/-- `cmd[31:17]`, reserved under every `OPC` (R72). -/
def upperReservedField (cmd : CommandWord) : BitVec 15 := cmd.extractLsb' 17 15

/-- `cmd[31:4]`, reserved for REFILL and NEXTWORD (R75, R76). -/
def operandlessReservedField (cmd : CommandWord) : BitVec 28 := cmd.extractLsb' 4 28

/-- The SEED row of the table (R74, R78). -/
def decodeSeed (cmd : CommandWord) : Except Illegal Instr :=
  if upperReservedField cmd ≠ 0 then .error .reservedBitSet
  else if memoryCountField cmd > 256 then .error .memoryCountReserved
  else .ok (.seed (memoryCountField cmd) (registerCountField cmd))

/-- A row without operands (R75, R76, R78). -/
def decodeOperandless (i : Instr) (cmd : CommandWord) : Except Illegal Instr :=
  if operandlessReservedField cmd ≠ 0 then .error .reservedBitSet else .ok i

/-- Decoding, a total function on the 2^32 command words (R78). -/
def decode (cmd : CommandWord) : Except Illegal Instr :=
  if opcodeField cmd = 1 then decodeSeed cmd
  else if opcodeField cmd = 2 then decodeOperandless .refill cmd
  else if opcodeField cmd = 3 then decodeOperandless .nextword cmd
  else .error .reservedOpcode

/-- The value of `OPC` that selects a command (R73). -/
def Instr.opcode : Instr → BitVec 4
  | .seed _ _ => 1
  | .refill => 2
  | .nextword => 3

/-- The command word of a command: `(RLEN << 13) | (MLEN << 4) | OPC` (R84); R75 and R76 give the other two. -/
def encode : Instr → CommandWord
  | .seed mlen rlen => BitVec.ofNat 32 rlen <<< 13 ||| BitVec.ofNat 32 mlen <<< 4 ||| 1
  | .refill => 2
  | .nextword => 3

/-- The command word whose bits are the low `nbits` bits of `w`, every higher bit zero. -/
def tableWord (nbits w : Nat) : Nat := w % 2 ^ nbits

/-- The command this decoder reads from a word numbered as spec/opcode_table.json numbers it (bit 0 is the least
significant bit of the command word, R11); a number that does not fit 32 bits is no command word
(DESIGN CHOICE, safe: log entry 13). -/
def decodeTableWord (nbits w : Nat) : Option Instr :=
  if tableWord nbits w < 2 ^ 32 then
    match decode (BitVec.ofNat 32 (tableWord nbits w)) with
    | .ok i => some i
    | .error _ => none
  else none

end Sys2Proof
end

