-- ==== Sys2Proof/Machine/Mixer.lean ====
section
/-! DEFINITION. The Mixer: a pure transform of eight words (42_mixer.md). It is an internal operation of SEED and has
no command word (30_encoding.md R83). Each Mixer is written as the eight stages of its listing, in the listing's
order (R144). The lists are the spec's own recollection of the reference (UNVERIFIED, unsafe: log entry 8). -/

namespace Sys2Proof.Machine

/-- The Mixer registers `q[0..7]`, which the document calls a, b, c, d, e, f, g, h (00_scope.md R15). They are working
storage of SEED and no state of the block (10_state.md R32). -/
structure Octet (w : Width) where
  a : Word w
  b : Word w
  c : Word w
  d : Word w
  e : Word w
  f : Word w
  g : Word w
  h : Word w
  deriving DecidableEq, Repr

variable {w : Width}

/-- `q[k]`. -/
def Octet.get (q : Octet w) (k : Fin 8) : Word w :=
  match k with
  | 0 => q.a
  | 1 => q.b
  | 2 => q.c
  | 3 => q.d
  | 4 => q.e
  | 5 => q.f
  | 6 => q.g
  | 7 => q.h

/-- The octet whose `q[k]` is `f k`. -/
def Octet.ofFn (f : Fin 8 → Word w) : Octet w := ⟨f 0, f 1, f 2, f 3, f 4, f 5, f 6, f 7⟩

/-- Eight copies of one word. -/
def Octet.replicate (x : Word w) : Octet w := ⟨x, x, x, x, x, x, x, x⟩

/-- `q[k] <- q[k] + p[k]` for every `k` (the first line of SEEDGROUP, 41_seeder.md R123). -/
def Octet.add (q p : Octet w) : Octet w :=
  ⟨q.a + p.a, q.b + p.b, q.c + p.c, q.d + p.d, q.e + p.e, q.f + p.f, q.g + p.g, q.h + p.h⟩

/-! ## `MIX_32` (R140) -/

/-- `a ^= b << 11;  d += a;  b += c`. -/
def mix32Stage0 (q : Octet .w32) : Octet .w32 :=
  let a := q.a ^^^ (q.b <<< 11)
  { q with a := a, d := q.d + a, b := q.b + q.c }

/-- `b ^= c >> 2;  e += b;  c += d`. -/
def mix32Stage1 (q : Octet .w32) : Octet .w32 :=
  let b := q.b ^^^ (q.c >>> 2)
  { q with b := b, e := q.e + b, c := q.c + q.d }

/-- `c ^= d << 8;  f += c;  d += e`. -/
def mix32Stage2 (q : Octet .w32) : Octet .w32 :=
  let c := q.c ^^^ (q.d <<< 8)
  { q with c := c, f := q.f + c, d := q.d + q.e }

/-- `d ^= e >> 16;  g += d;  e += f`. -/
def mix32Stage3 (q : Octet .w32) : Octet .w32 :=
  let d := q.d ^^^ (q.e >>> 16)
  { q with d := d, g := q.g + d, e := q.e + q.f }

/-- `e ^= f << 10;  h += e;  f += g`. -/
def mix32Stage4 (q : Octet .w32) : Octet .w32 :=
  let e := q.e ^^^ (q.f <<< 10)
  { q with e := e, h := q.h + e, f := q.f + q.g }

/-- `f ^= g >> 4;  a += f;  g += h`. -/
def mix32Stage5 (q : Octet .w32) : Octet .w32 :=
  let f := q.f ^^^ (q.g >>> 4)
  { q with f := f, a := q.a + f, g := q.g + q.h }

/-- `g ^= h << 8;  b += g;  h += a`. -/
def mix32Stage6 (q : Octet .w32) : Octet .w32 :=
  let g := q.g ^^^ (q.h <<< 8)
  { q with g := g, b := q.b + g, h := q.h + q.a }

/-- `h ^= a >> 9;  c += h;  a += b`. -/
def mix32Stage7 (q : Octet .w32) : Octet .w32 :=
  let h := q.h ^^^ (q.a >>> 9)
  { q with h := h, c := q.c + h, a := q.a + q.b }

/-- `MIX_32` (R140; from general knowledge, 93_implementation_defined.md G1). -/
def mix32 (q : Octet .w32) : Octet .w32 :=
  mix32Stage7 (mix32Stage6 (mix32Stage5 (mix32Stage4 (mix32Stage3 (mix32Stage2 (mix32Stage1 (mix32Stage0 q)))))))

/-! ## `MIX_64` (R141) -/

/-- `a -= e;  f ^= h >> 9;   h += a`. -/
def mix64Stage0 (q : Octet .w64) : Octet .w64 :=
  let a := q.a - q.e
  { q with a := a, f := q.f ^^^ (q.h >>> 9), h := q.h + a }

/-- `b -= f;  g ^= a << 9;   a += b`. -/
def mix64Stage1 (q : Octet .w64) : Octet .w64 :=
  let b := q.b - q.f
  { q with b := b, g := q.g ^^^ (q.a <<< 9), a := q.a + b }

/-- `c -= g;  h ^= b >> 23;  b += c`. -/
def mix64Stage2 (q : Octet .w64) : Octet .w64 :=
  let c := q.c - q.g
  { q with c := c, h := q.h ^^^ (q.b >>> 23), b := q.b + c }

/-- `d -= h;  a ^= c << 15;  c += d`. -/
def mix64Stage3 (q : Octet .w64) : Octet .w64 :=
  let d := q.d - q.h
  { q with d := d, a := q.a ^^^ (q.c <<< 15), c := q.c + d }

/-- `e -= a;  b ^= d >> 14;  d += e`. -/
def mix64Stage4 (q : Octet .w64) : Octet .w64 :=
  let e := q.e - q.a
  { q with e := e, b := q.b ^^^ (q.d >>> 14), d := q.d + e }

/-- `f -= b;  c ^= e << 20;  e += f`. -/
def mix64Stage5 (q : Octet .w64) : Octet .w64 :=
  let f := q.f - q.b
  { q with f := f, c := q.c ^^^ (q.e <<< 20), e := q.e + f }

/-- `g -= c;  d ^= f >> 17;  f += g`. -/
def mix64Stage6 (q : Octet .w64) : Octet .w64 :=
  let g := q.g - q.c
  { q with g := g, d := q.d ^^^ (q.f >>> 17), f := q.f + g }

/-- `h -= d;  e ^= g << 14;  g += h`. -/
def mix64Stage7 (q : Octet .w64) : Octet .w64 :=
  let h := q.h - q.d
  { q with h := h, e := q.e ^^^ (q.g <<< 14), g := q.g + h }

/-- `MIX_64` (R141; from general knowledge, 93_implementation_defined.md G2). -/
def mix64 (q : Octet .w64) : Octet .w64 :=
  mix64Stage7 (mix64Stage6 (mix64Stage5 (mix64Stage4 (mix64Stage3 (mix64Stage2 (mix64Stage1 (mix64Stage0 q)))))))

/-- `MIX_W`: the width fixes the Mixer (00_scope.md R8). -/
def mix : (w : Width) → Octet w → Octet w
  | .w32 => mix32
  | .w64 => mix64

/-! ## The default octet (R146) -/

/-- `GOLD_W`, the golden-ratio constant (00_scope.md R7; from general knowledge, 93_implementation_defined.md G3). -/
def golden : (w : Width) → Word w
  | .w32 => 0x9e3779b9
  | .w64 => 0x9e3779b97f4a7c13

/-- `OCT_32` (R146's table). -/
def defaultOctet32 : Octet .w32 :=
  ⟨0x1367df5a, 0x95d90059, 0xc3163e4b, 0x0f421ad8, 0xd92a4a78, 0xa51a3c49, 0xc4efea1b, 0x30609119⟩

/-- `OCT_64` (R146's table). -/
def defaultOctet64 : Octet .w64 :=
  ⟨0x647c4677a2884b7c, 0xb9f8b322c73ac862, 0x8c0ea5053d4712a0, 0xb29b2e824a595524,
    0x82f053db8355e0ce, 0x48fe4a0fa5a09315, 0xae985bf2cbfc89ed, 0x98f5704f6c44c0ab⟩

/-- `OCT_W`, the value of `q[0..7]` before the first group when SEED supplies no registers (R146). -/
def defaultOctet : (w : Width) → Octet w
  | .w32 => defaultOctet32
  | .w64 => defaultOctet64

end Sys2Proof.Machine
end

