-- ==== Sys2Proof/Machine/Bank.lean ====
section
/-! DEFINITION. The two 256-word arrays of the block and the accesses that reach them (20_memory.md).

An array is reached by word index only: the block has no byte-addressed memory (R50), so no list of bytes models it
and no byte order is observable (R53) (DEDUCED, safe: log entry 5). Indices are 8 bits wide (R51, R52), which `Fin 256` says. -/

namespace Sys2Proof.Machine

/-- An array of exactly 256 words, never resized (10_state.md R21, R22). -/
abbrev Bank (w : Width) := Vector (Word w) 256

variable {w : Width}

/-- `m[i]` (00_scope.md R12). -/
def Bank.read (m : Bank w) (i : Fin 256) : Word w := m[i.val]

/-- `m[i] <- v` (00_scope.md R12). -/
def Bank.write (m : Bank w) (i : Fin 256) (v : Word w) : Bank w := m.set i.val v

/-- The array that holds one word everywhere. -/
def Bank.fill (v : Word w) : Bank w := Vector.replicate 256 v

/-- The working memory before the first group: the given words, and zero in every position they do not reach
(41_seeder.md R121). -/
def Bank.ofPrefix (words : List (Word w)) : Bank w := Vector.ofFn fun k : Fin 256 => words.getD k.val 0

/-! ## The indirection lookup (40_word.md R108) -/

/-- `MASK_W = (N - 1) << L`: 0x3fc or 0x7f8. -/
def indirectMask (w : Width) : Word w := 255 <<< w.logBytes

/-- `indirect_index(v) = (v & MASK_W) >> L`. The value is below 256 (the mask leaves eight bits), so taking it as an
8-bit number drops nothing. -/
def indirectIndex (v : Word w) : Fin 256 :=
  (((v &&& indirectMask w) >>> w.logBytes).setWidth 8).toFin

/-- `indirect(m, v) = m[indirect_index(v)]`, read from `m` as it stands. -/
def indirect (m : Bank w) (v : Word w) : Word w := m.read (indirectIndex v)

/-! ## The groups of eight words a seeding pass visits (41_seeder.md R123) -/

/-- The index of word `8g + k`. -/
def groupIndex (g : Fin 32) (k : Fin 8) : Fin 256 := ⟨8 * g.val + k.val, by omega⟩

/-- `m[8g .. 8g+7]`. -/
def Bank.group (m : Bank w) (g : Fin 32) : Octet w := Octet.ofFn fun k => m.read (groupIndex g k)

/-- `m[8g + k] <- q[k]` for `k` in 0..7, in increasing order. -/
def Bank.setGroup (m : Bank w) (g : Fin 32) (q : Octet w) : Bank w :=
  let m := m.write (groupIndex g 0) q.a
  let m := m.write (groupIndex g 1) q.b
  let m := m.write (groupIndex g 2) q.c
  let m := m.write (groupIndex g 3) q.d
  let m := m.write (groupIndex g 4) q.e
  let m := m.write (groupIndex g 5) q.f
  let m := m.write (groupIndex g 6) q.g
  m.write (groupIndex g 7) q.h

end Sys2Proof.Machine
end

