-- ==== Sys2Proof/Machine/Seeding.lean ====
section
/-! DEFINITION. The working memory SEED leaves (41_seeder.md R121 to R125), as a function of the seed alone (R129).
Reset uses the same function (10_state.md R36). -/

namespace Sys2Proof.Machine

/-- What the seeding passes carry: the Mixer registers and the working memory. Neither the registers nor the position
in the passes is state of the block (10_state.md R29, R32). -/
structure Seeding (w : Width) where
  q : Octet w
  m : Bank w
  deriving DecidableEq, Repr

variable {w : Width}

/-- `SEEDGROUP(g)` (R123): add the group's words into the registers, mix, write the registers back. -/
def seedGroup (g : Fin 32) (x : Seeding w) : Seeding w :=
  let q := mix w (x.q.add (x.m.group g))
  { q := q, m := x.m.setGroup g q }

/-- The groups `0 .. n-1` in increasing order, the registers carried from each to the next (R123, R125). -/
@[irreducible] def seedGroups : Nat → Seeding w → Seeding w
  | 0, x => x
  | n + 1, x => seedGroup (Fin.ofNat 32 n) (seedGroups n x)

/-- One full pass over the 256 words (R124). -/
def seedPass (x : Seeding w) : Seeding w := seedGroups 32 x

/-- `SEEDMEM_W(mem, regs)`: the memory after both passes; without registers the start is the default octet (R122). The
second pass reads what the first wrote and starts from the registers it left (R124, R125). -/
@[irreducible] def seedMemory (w : Width) (mem : List (Word w)) (regs : Option (Octet w)) : Bank w :=
  (seedPass (seedPass { q := regs.getD (defaultOctet w), m := Bank.ofPrefix mem })).m

end Sys2Proof.Machine
end

