-- ==== Sys2Proof/Machine/State.lean ====
section
/-! DEFINITION. The state of the machine: the block (10_state.md R20), the transaction port in front of it
(30_encoding.md R70, R71), and the instance parameter `W` (10_state.md R28). -/

namespace Sys2Proof.Machine

/-- The status of a response (60_exceptions.md R200). Codes 4 to 15 are never produced, so they have no constructor
(93_implementation_defined.md U7). A status is part of a response only and no state of the block (10_state.md R30). -/
inductive Status where
  | ok
  | invalidSeedConfiguration
  | illegalCommand
  | payloadLengthMismatch
  deriving DecidableEq, Repr

/-- A command transaction `(cmd, payload)` (R70). -/
structure Transaction (w : Width) where
  cmd : CommandWord
  payload : List (Word w)
  deriving DecidableEq, Repr

/-- A response `(status, data)` (R70). -/
structure Response (w : Width) where
  status : Status
  data : List (Word w)
  deriving DecidableEq, Repr

/-- What the outside can do to the block (60_exceptions.md R217, R218). -/
inductive HostInput (w : Width) where
  /-- A command transaction. -/
  | command (t : Transaction w)
  /-- Reset, asserted between commands (70_reset_and_hazards.md R230). -/
  | reset
  /-- Reset, asserted while this command runs and before its response (R234). -/
  | resetDuring (t : Transaction w)
  /-- Power is lost and comes back (R217). The spec does not say whether a command that runs when the power is lost is
  answered. DESIGN CHOICE, unsafe: the loss lands between whole commands, so that a command is answered before it or
  still waits behind it, and there is no loss of power inside a command (log entry 6). -/
  | powerLoss
  deriving DecidableEq, Repr

/-- The architectural state of the block, all of it (10_state.md R20). -/
structure Block (w : Width) where
  /-- The working memory (R21). -/
  m : Bank w
  /-- The output block (R22). -/
  r : Bank w
  /-- Register `a` (R23). -/
  a : Word w
  /-- Register `b` (R24). -/
  b : Word w
  /-- Register `c`, the block counter (R25). -/
  c : Word w
  /-- The extractor's cursor, 0 to 256; 256 means the buffer is empty (R26). -/
  ridx : Fin 257
  deriving DecidableEq, Repr

/-- The transaction port. It is the model's, not the block's state: the inputs that wait, in acceptance order
(20_memory.md R60, 70_reset_and_hazards.md R233), and the responses given so far, which are the observation of a run
(60_exceptions.md R219) (DESIGN CHOICE, safe: log entry 3). -/
structure Port (w : Width) where
  /-- The inputs not yet answered, the first one next. The head command stays here until its response (R233). -/
  pending : List (HostInput w)
  /-- The responses, oldest first: one per command, in command order (R71). -/
  responses : List (Response w)
  deriving DecidableEq, Repr

/-- A step never ends in a fault: the block has no trap mechanism, and every error is the status of a response
(60_exceptions.md R209). The type has no constructor, so that no meaning can answer with one
(DEDUCED, safe: log entry 4). -/
inductive Fault where
  deriving DecidableEq, Repr

/-- A step that ends without a meaning. -/
inductive Refusal where
  /-- Raised by an arm of `exec` whose command has no meaning yet; no arm of this model raises it. Safe: the machine
  stops where the block goes on. -/
  | notModelled (mnemonic : String)
  deriving DecidableEq, Repr

/-- The machine. `width` is the instance parameter `W`, held so that one machine covers both variants; no step
changes it (DESIGN CHOICE, unsafe: log entry 1). `powerLosses` is the model's own counter, the argument of the free values that stand for
the contents after a power loss (DESIGN CHOICE: log entry 6). -/
structure State where
  width : Width
  block : Block width
  port : Port width
  powerLosses : Nat
  deriving DecidableEq, Repr

/-- The block right after reset (10_state.md R36, 70_reset_and_hazards.md R230). The words of `r` may hold any value,
and no command can observe them (R27); DESIGN CHOICE, unsafe: they are zero (log entry 2). -/
@[irreducible] def Block.reset (w : Width) : Block w :=
  { m := seedMemory w [] none, r := Bank.fill 0, a := 0, b := 0, c := 0, ridx := 256 }

/-- The port before the host has sent anything. -/
def Port.empty (w : Width) : Port w := { pending := [], responses := [] }

/-- An instance of width `w` right after reset. -/
def State.resetOf (w : Width) : State :=
  { width := w, block := Block.reset w, port := Port.empty w, powerLosses := 0 }

/-- The machine right after reset, at the width of `Config.width`. -/
def State.reset : State := State.resetOf Config.width

end Sys2Proof.Machine
end

