-- ==== Sys2Proof/Machine/Ops.lean ====
section
/-! DEFINITION. The named operations over the machine: reading the transaction in progress, ending it with a response,
raising a status, and the inputs that are no commands. -/

namespace Sys2Proof.Machine

/-- The 4-bit code of a status (60_exceptions.md R200). -/
def Status.code : Status → BitVec 4
  | .ok => 0
  | .invalidSeedConfiguration => 1
  | .illegalCommand => 2
  | .payloadLengthMismatch => 3

/-! ## The port -/

/-- The input the block takes next, if the host has sent one. -/
def Port.nextInput {w : Width} (p : Port w) : Option (HostInput w) := p.pending.head?

/-- The payload of the command in progress, which stands at the head of the port (30_encoding.md R70); without a
command there, nothing (DESIGN CHOICE, unsafe: log entry 11). -/
def Port.payload {w : Width} (p : Port w) : List (Word w) :=
  match p.nextInput with
  | some (.command t) => t.payload
  | _ => []

/-- The input the machine takes next. -/
def State.nextInput (s : State) : Option (HostInput s.width) := s.port.nextInput

/-- The payload of the command in progress. -/
def State.payload (s : State) : List (Word s.width) := s.port.payload

/-- The input at the head has been taken. -/
def Port.consume {w : Width} (p : Port w) : Port w := { p with pending := p.pending.tail }

/-- The response to the command at the head is given, and the command is gone: the next may be accepted
(70_reset_and_hazards.md R233). -/
def Port.answer {w : Width} (p : Port w) (status : Status) (data : List (Word w)) : Port w :=
  { pending := p.pending.tail, responses := p.responses ++ [{ status := status, data := data }] }

/-- The host sends commands; they wait behind what it sent before, none dropped (R233). -/
def State.submit (s : State) (ts : List (Transaction s.width)) : State :=
  { s with port := { s.port with pending := s.port.pending ++ ts.map .command } }

/-- What an observer of the run sees (60_exceptions.md R219). -/
def State.observation (s : State) : List (Response s.width) := s.port.responses

/-! ## How a command ends -/

/-- `respond(OK, data)` with the effects of the command: all of them at once (20_memory.md R56). -/
def State.complete (s : State) (block : Block s.width) (data : List (Word s.width)) : State :=
  { s with block := block, port := s.port.answer .ok data }

/-- `raise Status()`: no change to the state of the block, and the response `(status, [])` (00_scope.md R13,
60_exceptions.md R201). This is the block's only way to report an error: nothing is saved, no mode changes, there is no
handler (R209), and the next command is accepted normally (R210). -/
def State.raise (s : State) (status : Status) : State :=
  { s with port := s.port.answer status [] }

/-- A command ends with its status: with `OK` its effects and data, with any other status neither (R201). -/
def State.finish (s : State) (status : Status) (block : Block s.width) (data : List (Word s.width)) : State :=
  match status with
  | .ok => s.complete block data
  | .invalidSeedConfiguration => s.raise .invalidSeedConfiguration
  | .illegalCommand => s.raise .illegalCommand
  | .payloadLengthMismatch => s.raise .payloadLengthMismatch

/-! ## Inputs that are no commands -/

/-- Reset: the block is as after reset, no response is produced, and `W` stays (70_reset_and_hazards.md R230). It is one
step (R235). What the host sent after it still waits (DESIGN CHOICE, unsafe: log entry 7). -/
def State.takeReset (s : State) : State :=
  { s with block := Block.reset s.width, port := s.port.consume }

/-- Reset during a command: the command is abandoned, none of its effects takes place, and no response is produced; the
state is that of reset (R234). -/
def State.abandonCommand (s : State) (_ : Transaction s.width) : State := s.takeReset

/-- What the block holds when power comes back: nothing the spec fixes (60_exceptions.md R217), so free values. -/
def Block.afterPowerLoss (w : Width) (n : Nat) : Block w :=
  { m := Config.lostMemory w n
    r := Config.lostOutput w n
    a := Config.lostA w n
    b := Config.lostB w n
    c := Config.lostC w n
    ridx := Config.lostCursor n }

/-- Loss of power loses the state of the block (R217). Only a reset makes it defined again; until then the commands run
on contents nothing constrains (log entry 6). -/
def State.losePower (s : State) : State :=
  { s with
    block := Block.afterPowerLoss s.width s.powerLosses
    port := s.port.consume
    powerLosses := s.powerLosses + 1 }

/-- No input waits: the block is idle and holds its state (R217). -/
def State.idle (s : State) : State := s

end Sys2Proof.Machine
end

