-- ==== Sys2Proof/Machine/Operands.lean ====
section
/-! DEFINITION. The operands of a command: the counts of its command word and the words of its payload
(30_encoding.md R79, R80). -/

namespace Sys2Proof.Machine

variable {w : Width}

/-- The payload length a decoded command expects (R79). -/
def expectedPayloadLength : Instr → Nat
  | .seed mlen rlen => mlen + rlen
  | .refill => 0
  | .nextword => 0

/-- The seed memory: `payload[0 .. MLEN-1]` (R80). -/
def seedMemoryWords (mlen : Nat) (payload : List (Word w)) : List (Word w) := payload.take mlen

/-- The seed registers: `payload[MLEN .. MLEN+RLEN-1]` (R80). -/
def seedRegisterWords (mlen rlen : Nat) (payload : List (Word w)) : List (Word w) := (payload.drop mlen).take rlen

/-- `q[k] <- reg[k]` for eight register words, unmixed (41_seeder.md R122). -/
def Octet.ofWords (reg : List (Word w)) : Octet w := Octet.ofFn fun k => reg.getD k.val 0

/-- The registers SEED starts from when it supplies them; `none` asks for the default octet (R122). -/
def suppliedOctet (mlen rlen : Nat) (payload : List (Word w)) : Option (Octet w) :=
  if rlen = 8 then some (Octet.ofWords (seedRegisterWords mlen rlen payload)) else none

/-- The transaction of a table word: the word, and zeros for the payload words its command expects (an illegal word
expects none). -/
def tableTransaction (w : Width) (nbits word : Nat) : Transaction w :=
  { cmd := BitVec.ofNat 32 (tableWord nbits word)
    payload := match decode (BitVec.ofNat 32 (tableWord nbits word)) with
      | .ok i => List.replicate (expectedPayloadLength i) 0
      | .error _ => [] }

end Sys2Proof.Machine
end

