-- ==== Sys2Proof/Machine/Flags.lean ====
section
/-! DEFINITION. The status of a command. The block has no flags and no condition codes; a command's only status output
is the code in its response (10_state.md R30). -/

namespace Sys2Proof.Machine

/-- The status of a SEED with a payload of `len` words: the length is checked first, then the register count
(60_exceptions.md R202, R204, R206). -/
def seedStatus (mlen rlen len : Nat) : Status :=
  if len ≠ expectedPayloadLength (.seed mlen rlen) then .payloadLengthMismatch
  else if rlen ≠ 0 ∧ rlen ≠ 8 then .invalidSeedConfiguration
  else .ok

/-- The status of a REFILL with a payload of `len` words (R203, R206). -/
def refillStatus (len : Nat) : Status :=
  if len ≠ expectedPayloadLength .refill then .payloadLengthMismatch else .ok

/-- The status of a NEXTWORD with a payload of `len` words (R203, R206). -/
def nextwordStatus (len : Nat) : Status :=
  if len ≠ expectedPayloadLength .nextword then .payloadLengthMismatch else .ok

end Sys2Proof.Machine
end

