-- ==== Sys2Proof/Machine/Refiller.lean ====
section
/-! DEFINITION. The refill sequence and REFILL (43_refiller.md). -/

namespace Sys2Proof.Machine

variable {w : Width}

/-- `AUPD_32(a, k)` (R163). -/
def aUpdate32 (a : Word .w32) (k : Fin 4) : Word .w32 :=
  match k with
  | 0 => a ^^^ (a <<< 13)
  | 1 => a ^^^ (a >>> 6)
  | 2 => a ^^^ (a <<< 2)
  | 3 => a ^^^ (a >>> 16)

/-- `AUPD_64(a, k)`; only `k = 0` complements (R164). -/
def aUpdate64 (a : Word .w64) (k : Fin 4) : Word .w64 :=
  match k with
  | 0 => ~~~(a ^^^ (a <<< 21))
  | 1 => a ^^^ (a >>> 5)
  | 2 => a ^^^ (a <<< 12)
  | 3 => a ^^^ (a >>> 33)

/-- `AUPD_W(a, k)`: the width fixes the expression set (00_scope.md R8). -/
def aUpdate : (w : Width) → Word w → Fin 4 → Word w
  | .w32 => aUpdate32
  | .w64 => aUpdate64

/-- The partner `j` of position `i` (R162). -/
def partner (i : Fin 256) : Fin 256 :=
  if h : i.val < 128 then ⟨i.val + 128, by omega⟩ else ⟨i.val - 128, by omega⟩

/-- The a-update selector of position `i`: `i mod 4` (R162). -/
def selector (i : Fin 256) : Fin 4 := ⟨i.val % 4, by omega⟩

/-- `RSTEP(i, j)` (R165). The second lookup reads the memory after the write of `m[i]` (20_memory.md R55). The
temporaries `x` and `y` are no state (10_state.md R33). -/
def Block.refillStep (i : Fin 256) (s : Block w) : Block w :=
  let a := aUpdate w s.a (selector i) + s.m.read (partner i)
  let x := s.m.read i
  let y := indirect s.m x + a + s.b
  let m := s.m.write i y
  let b := indirect m (y >>> 8) + x
  { s with m := m, r := s.r.write i b, a := a, b := b }

/-- The steps at positions `0 .. n-1`, in increasing order (R162). -/
@[irreducible] def Block.refillSteps : Nat → Block w → Block w
  | 0, s => s
  | n + 1, s => (Block.refillSteps n s).refillStep (Fin.ofNat 256 n)

/-- Counter perturbation: `c <- c + 1`, then `b <- b + c` with the new `c` (R161). -/
def Block.perturb (s : Block w) : Block w := { s with b := s.b + (s.c + 1), c := s.c + 1 }

/-- `REFILL_SEQ` (R160): perturb, 256 steps, and the whole new block is the buffer (R167). -/
@[irreducible] def Block.refill (s : Block w) : Block w := { Block.refillSteps 256 s.perturb with ridx := 0 }

/-- `r[0], r[1], ..., r[255]` (30_encoding.md R81). -/
def Block.output (s : Block w) : List (Word w) := s.r.toList

/-- REFILL (R160). -/
def execRefill (s : State) : Host.Outcome State Fault Refusal :=
  .next (s.finish (refillStatus s.payload.length) s.block.refill s.block.refill.output)

end Sys2Proof.Machine
end

