-- ==== Sys2Proof/Machine/Extractor.lean ====
section
/-! DEFINITION. NEXTWORD (44_extractor.md). -/

namespace Sys2Proof.Machine

variable {w : Width}

/-- The buffer is empty: `ridx = 256` (10_state.md R26). -/
def Block.exhausted (s : Block w) : Bool := s.ridx.val = 256

/-- The block NEXTWORD serves from: refilled first if the buffer is empty (44_extractor.md R190, R191). -/
def Block.refillIfExhausted (s : Block w) : Block w := if s.exhausted then s.refill else s

/-- `r[ridx]`. The cursor is below 256 wherever NEXTWORD reads it, so the reduction to an index drops nothing. -/
def Block.cursorWord (s : Block w) : Word w := s.r.read (Fin.ofNat 256 s.ridx.val)

/-- `ridx <- ridx + 1`. -/
def Block.advance (s : Block w) : Block w := { s with ridx := s.ridx + 1 }

/-- The word NEXTWORD returns (R190). -/
def Block.servedWord (s : Block w) : Word w := s.refillIfExhausted.cursorWord

/-- The block NEXTWORD leaves (R190). -/
def Block.serve (s : Block w) : Block w := s.refillIfExhausted.advance

/-- NEXTWORD (R190). -/
def execNextword (s : State) : Host.Outcome State Fault Refusal :=
  .next (s.finish (nextwordStatus s.payload.length) s.block.serve [s.block.servedWord])

end Sys2Proof.Machine
end

