-- ==== Sys2Proof/Machine/Seeder.lean ====
section
/-! DEFINITION. SEED (41_seeder.md). -/

namespace Sys2Proof.Machine

/-- The block after a successful SEED (R120): the seeded memory, the registers cleared (R126) and the buffer discarded
(R127). SEED does not write `r`. -/
def Block.seed {w : Width} (s : Block w) (mem : List (Word w)) (regs : Option (Octet w)) : Block w :=
  { s with m := seedMemory w mem regs, a := 0, b := 0, c := 0, ridx := 256 }

/-- SEED (R120). -/
def execSeed (mlen rlen : Nat) (s : State) : Host.Outcome State Fault Refusal :=
  .next (s.finish (seedStatus mlen rlen s.payload.length)
    (s.block.seed (seedMemoryWords mlen s.payload) (suppliedOctet mlen rlen s.payload)) [])

end Sys2Proof.Machine
end

