-- ==== Sys2Proof/Machine/Dispatch.lean ====
section
/-! DEFINITION. One arm per command. -/

namespace Sys2Proof.Machine

def exec (i : Instr) (s : State) : Host.Outcome State Fault Refusal :=
  match i with
  | .seed mlen rlen => Sys2Proof.Machine.execSeed mlen rlen s
  | .refill => Sys2Proof.Machine.execRefill s
  | .nextword => Sys2Proof.Machine.execNextword s

end Sys2Proof.Machine
end

