-- ==== Sys2Proof/Machine/Command.lean ====
section
/-! DEFINITION. From a command word to the command that runs. -/

namespace Sys2Proof.Machine

/-- A command whose word does not decode ends with ILLEGAL_COMMAND, whatever its payload (60_exceptions.md R202, R205);
any other runs (30_encoding.md R73). -/
def runCommand (cmd : CommandWord) (s : State) : Host.Outcome State Fault Refusal :=
  match decode cmd with
  | .ok i => exec i s
  | .error _ => .next (s.raise .illegalCommand)

end Sys2Proof.Machine
end

