-- ==== Sys2Proof/Machine/Step.lean ====
section
/-! DEFINITION. One step: one input of the host, taken whole (00_scope.md R14, 10_state.md R29, 92_eei_decisions.md D1).

The block fetches no instructions and has no program counter (20_memory.md R63, 10_state.md R29). What a step takes is
the input at the head of the port. -/

namespace Sys2Proof.Machine

/-- One step of the machine. -/
def step (s : State) : Host.Outcome State Fault Refusal :=
  match s.nextInput with
  | none => .next s.idle
  | some (.command t) => runCommand t.cmd s
  | some .reset => .next s.takeReset
  | some (.resetDuring t) => .next (s.abandonCommand t)
  | some .powerLoss => .next s.losePower

/-- The state whose very next step takes the command word `w`, with zeros for the payload words its command expects:
the transaction is put before everything that waits at the port, and nothing else changes. -/
def State.withFetchWord (s : State) (nbits w : Nat) : State :=
  { s with port := { s.port with pending := .command (tableTransaction s.width nbits w) :: s.port.pending } }

end Sys2Proof.Machine
end

