-- ==== Sys2Proof/Machine/Script.lean ====
section
/-! DEFINITION. The command-script language (30_encoding.md R84, R85) and the constructor of the source's software
interface (70_reset_and_hazards.md R231), both as what the host sends. A script line is held as what it says; its
spelling as text is no part of the model (DESIGN CHOICE, safe: log entry 10). -/

namespace Sys2Proof.Machine

/-- One line of a command script. An omitted list is the empty list (R84's first row, R85). -/
inductive ScriptLine (w : Width) where
  /-- `SEED mem={...} regs={...}`. -/
  | seed (mem regs : List (Word w))
  /-- `REFILL`. -/
  | refill
  /-- `NEXTWORD`. -/
  | nextword
  /-- `.cmd 0xHHHHHHHH payload={...}`. -/
  | raw (cmd : CommandWord) (payload : List (Word w))
  /-- `SEED.DEFAULT` (R85). -/
  | seedDefault
  /-- `SEED.ZERO` (R85). -/
  | seedZero
  /-- `NEXTWORD.N n` (R85). -/
  | nextwordN (n : Nat)
  deriving DecidableEq, Repr

variable {w : Width}

/-- The transaction of a SEED with these lists, memory first (R80); a list longer than its field can hold is refused
(R84). -/
def seedTransaction (mem regs : List (Word w)) : Option (Transaction w) :=
  if mem.length ≤ 256 ∧ regs.length ≤ 15 then
    some { cmd := encode (.seed mem.length regs.length), payload := mem ++ regs }
  else none

/-- The transaction of a command without operands. -/
def plainTransaction (i : Instr) : Transaction w := { cmd := encode i, payload := [] }

/-- The transactions of a script line, in order; `none` where the assembler refuses the line (R84, R85). -/
def ScriptLine.assemble : ScriptLine w → Option (List (Transaction w))
  | .seed mem regs => (seedTransaction mem regs).map ([·])
  | .refill => some [plainTransaction .refill]
  | .nextword => some [plainTransaction .nextword]
  | .raw cmd payload => some [{ cmd := cmd, payload := payload }]
  | .seedDefault => (seedTransaction [] []).map ([·])
  | .seedZero => (seedTransaction [] []).map ([·])
  | .nextwordN n => some (List.replicate n (plainTransaction .nextword))

/-- The transactions of a script, or `none` where a line is refused. -/
def assembleScript : List (ScriptLine w) → Option (List (Transaction w))
  | [] => some []
  | l :: ls =>
    match l.assemble, assembleScript ls with
    | some ts, some rest => some (ts ++ rest)
    | _, _ => none

/-- The source's constructor (R231): the width, reset, and a SEED with the constructor's seed arguments when it has any.
Where that SEED answers INVALID_SEED_CONFIGURATION the host treats the construction as failed; the block itself stays in
its reset state. A list no SEED can carry gives no instance. -/
def State.construct (w : Width) (args : Option (List (Word w) × List (Word w))) : Option State :=
  match args with
  | none => some (State.resetOf w)
  | some (mem, regs) => (seedTransaction mem regs).map fun t => (State.resetOf w).submit [t]

end Sys2Proof.Machine
end

