-- ==== Sys2Proof/Safety.lean ====
section
/-! DEFINITION. The words claims use: the spec's recurrences for SEED and REFILL written without the machine's own
loops, the forms a response can take, and the invariant of a run. -/

namespace Sys2Proof.Machine

variable {w : Width}

/-! ## What a refill leaves, written as equations (43_refiller.md R161 to R169)

Each position of `m` and of `r` is written exactly once (R165), so the word the final array holds at position `i` is the
word step `i` wrote there, and the memory a step sees is the final array below its position and the old one from there
on. -/

/-- The memory that reads as `new` at the positions below `n` and as `old` from `n` on. -/
def mixedRead (old new : Bank w) (n : Nat) (k : Fin 256) : Word w := if k.val < n then new.read k else old.read k

/-- The partner word step `i` reads: from before the refill in the first half, rewritten by the same refill in the
second (R169). -/
def partnerWord (old new : Bank w) (i : Fin 256) : Word w :=
  if i.val < 128 then old.read (Fin.ofNat 256 (i.val + 128)) else new.read (Fin.ofNat 256 (i.val - 128))

/-- The six statements of step `i` (R165), for `a`, `b` before the step and `a'`, `b'` after it. -/
def RefillStepHolds (old new out : Bank w) (i : Fin 256) (a b a' b' : Word w) : Prop :=
  a' = aUpdate w a (Fin.ofNat 4 i.val) + partnerWord old new i ∧
  new.read i = mixedRead old new i.val (indirectIndex (old.read i)) + a' + b ∧
  b' = mixedRead old new (i.val + 1) (indirectIndex (new.read i >>> 8)) + old.read i ∧
  out.read i = b'

/-- The 256 steps lead from `a0`, `b0` and the memory `old` to `a1`, `b1`, the memory `new` and the block `out`. -/
def RefillRecurrence (old new out : Bank w) (a0 b0 a1 b1 : Word w) : Prop :=
  ∃ a b : Nat → Word w,
    a 0 = a0 ∧ b 0 = b0 ∧ a 256 = a1 ∧ b 256 = b1 ∧
    ∀ i : Fin 256, RefillStepHolds old new out i (a i.val) (b i.val) (a (i.val + 1)) (b (i.val + 1))

/-- The block `t` is what a refill leaves of the block `s`. -/
def Block.RefillsTo (s t : Block w) : Prop :=
  RefillRecurrence s.m t.m t.r s.a (s.b + (s.c + 1)) t.a t.b ∧ t.c = s.c + 1 ∧ t.ridx.val = 0

/-! ## What a seeding leaves, written as equations (41_seeder.md R121 to R125) -/

/-- The octet of group `g` of the working memory before the first group: the seed's words, then zeros (R121). -/
def seedGroupWords (mem : List (Word w)) (g : Nat) : Octet w := Octet.ofFn fun k => mem.getD (8 * g + k.val) 0

/-- The registers run through 64 groups without being set again (R125): `q n` is their value before group `n` counted
over both passes. Pass 0 adds the seed's words, pass 1 the words pass 0 wrote into the same group (R124), and what pass 1
writes is what the memory holds. -/
def SeedRecurrence (mem : List (Word w)) (start : Octet w) (m : Bank w) : Prop :=
  ∃ q : Nat → Octet w,
    q 0 = start ∧
    (∀ g < 32, q (g + 1) = mix w ((q g).add (seedGroupWords mem g))) ∧
    (∀ g < 32, q (32 + g + 1) = mix w ((q (32 + g)).add (q (g + 1)))) ∧
    ∀ (g : Fin 32) (k : Fin 8), m.read (groupIndex g k) = (q (32 + g.val + 1)).get k

/-! ## The Mixer's generic forms (42_mixer.md R140, R141) -/

/-- `q[k] <- v`. -/
def Octet.set (q : Octet w) (k : Fin 8) (v : Word w) : Octet w := Octet.ofFn fun j => if j = k then v else q.get j

/-- `S32`. -/
def mixShift32 : Fin 8 → Nat := ![11, 2, 8, 16, 10, 4, 8, 9]

/-- `S64`. -/
def mixShift64 : Fin 8 → Nat := ![9, 9, 23, 15, 14, 20, 17, 14]

/-- Stage `t` of `MIX_32`: `q[t] ^= shift(q[t+1], S32[t]); q[t+3] += q[t]; q[t+1] += q[t+2]`, a left shift when `t` is
even. -/
def genericStage32 (q : Octet .w32) (t : Fin 8) : Octet .w32 :=
  let x := q.get (t + 1)
  let q := q.set t (q.get t ^^^ (if t.val % 2 = 0 then x <<< mixShift32 t else x >>> mixShift32 t))
  let q := q.set (t + 3) (q.get (t + 3) + q.get t)
  q.set (t + 1) (q.get (t + 1) + q.get (t + 2))

/-- Stage `t` of `MIX_64`: `q[t] -= q[t+4]; q[t+5] ^= shift(q[t+7], S64[t]); q[t+7] += q[t]`, a right shift when `t` is
even. -/
def genericStage64 (q : Octet .w64) (t : Fin 8) : Octet .w64 :=
  let q := q.set t (q.get t - q.get (t + 4))
  let x := q.get (t + 7)
  let q := q.set (t + 5) (q.get (t + 5) ^^^ (if t.val % 2 = 0 then x >>> mixShift64 t else x <<< mixShift64 t))
  q.set (t + 7) (q.get (t + 7) + q.get t)

/-! ## Command words by their bits (30_encoding.md R72 to R77) -/

/-- The words that decode as Illegal, by the number they are: `OPC` is the last hexadecimal digit, `MLEN` the nine bits
above it. -/
def IllegalBits (cmd : CommandWord) : Prop :=
  cmd.toNat % 16 = 0 ∨ 4 ≤ cmd.toNat % 16 ∨
  (cmd.toNat % 16 = 1 ∧ (cmd.toNat / 2 ^ 17 ≠ 0 ∨ 256 < cmd.toNat / 16 % 512)) ∨
  (cmd.toNat % 16 = 2 ∧ cmd.toNat / 16 ≠ 0) ∨
  (cmd.toNat % 16 = 3 ∧ cmd.toNat / 16 ≠ 0)

/-! ## Runs -/

/-- The first input waiting at the port is this command. -/
abbrev State.takes (s : State) (t : Transaction s.width) : Prop := s.nextInput = some (.command t)

/-- One command has been answered with `resp` and left the block as `block`: the command is gone from the port, the
response stands after the earlier ones, and nothing else of the machine has changed. -/
def State.answered (s : State) (block : Block s.width) (resp : Response s.width) : State :=
  { s with
    block := block
    port := { pending := s.port.pending.tail, responses := s.port.responses ++ [resp] } }

/-- `n` transactions of NEXTWORD. -/
def nextwords (w : Width) (n : Nat) : List (HostInput w) := List.replicate n (.command (plainTransaction .nextword))

/-- Two blocks differ at most in consumed words of `r`: the words no command reads again before a refill rewrites them
(10_state.md R27). -/
def Block.SameButConsumed (s t : Block w) : Prop :=
  s.m = t.m ∧ s.a = t.a ∧ s.b = t.b ∧ s.c = t.c ∧ s.ridx = t.ridx ∧
  ∀ k : Fin 256, s.ridx.val ≤ k.val → s.r.read k = t.r.read k

/-! ## The invariant of a run -/

/-- A response no command gives is never there: an error carries no data, and an OK response carries none, one word, or
a block (30_encoding.md R81, 60_exceptions.md R201). -/
def Response.wellShaped (r : Response w) : Bool :=
  match r.status with
  | .ok => r.data.length = 0 || r.data.length = 1 || r.data.length = 256
  | _ => r.data.isEmpty

/-- While words of the block are buffered, `b` holds the last word of the block (43_refiller.md R166). -/
def Block.lastWordInB (s : Block w) : Bool := decide (s.ridx.val < 256 → s.b = s.r.read 255)

/-- A safe run: power is never lost, every response has a form the spec gives it, and the buffered block is the one the
registers belong to. -/
def State.Inv (s : State) : Prop :=
  (∀ x ∈ s.port.pending, x ≠ .powerLoss) ∧ (∀ r ∈ s.port.responses, r.wellShaped = true) ∧ s.block.lastWordInB = true

end Sys2Proof.Machine
end

