-- ==== Sys2Proof/Certificates/Slice0/Obligations.lean ====
section
/-! DEFINITION. The statements for the provers. -/

open Sys2Proof Sys2Proof.Machine

/-! ## Command words (30_encoding.md) -/

/-- Every well-formed command comes back from its command word, with every `MLEN` and `RLEN` the encoding admits (R78,
R84). -/
def Obligations.DecodeAfterEncode : Prop :=
  ∀ i : Instr, i.wellFormed = true → decode (encode i) = .ok i

/-- A word that decodes is the word of its command, and the command is well formed: no two legal words mean the same
command (R77, R78, R84). -/
def Obligations.EncodeAfterDecode : Prop :=
  ∀ (cmd : CommandWord) (i : Instr), decode cmd = .ok i → i.wellFormed = true ∧ encode i = cmd

/-- The words of R86's examples, read as the spec reads them. Which reason an illegal word gets is the model's naming (log
entry 12). -/
def Obligations.CommandWordExamples : Prop :=
  decode 0x00000001 = .ok (.seed 0 0) ∧ decode 0x00000011 = .ok (.seed 1 0) ∧ decode 0x00010001 = .ok (.seed 0 8) ∧
  decode 0x00001001 = .ok (.seed 256 0) ∧ decode 0x00011001 = .ok (.seed 256 8) ∧
  decode 0x00006001 = .ok (.seed 0 3) ∧ decode 0x00001011 = .error .memoryCountReserved ∧
  decode 0x00020001 = .error .reservedBitSet ∧ decode 0x00000002 = .ok .refill ∧ decode 0x00000003 = .ok .nextword ∧
  decode 0x00000000 = .error .reservedOpcode ∧ decode 0x00000004 = .error .reservedOpcode ∧
  decode 0x00000013 = .error .reservedBitSet

/-- A command ends with ILLEGAL_COMMAND exactly when its word decodes as Illegal, and those words are the ones with a
reserved `OPC`, a reserved bit, or `MLEN` in 257..511 (60_exceptions.md R205). -/
def Obligations.IllegalWordsByBits : Prop :=
  ∀ (s : State) (t : Transaction s.width), s.takes t →
    ∃ (b : Block s.width) (r : Response s.width), step s = .next (s.answered b r) ∧
      (r.status = .illegalCommand ↔ ∃ e, decode t.cmd = .error e) ∧
      ((∃ e, decode t.cmd = .error e) ↔ IllegalBits t.cmd)

/-- The REFILL word is exactly 2 and the NEXTWORD word exactly 3; any other word with that `OPC` has a reserved bit set
and completes with ILLEGAL_COMMAND (R75, R76). -/
def Obligations.OperandlessWordsAreExact : Prop :=
  (∀ cmd : CommandWord, decode cmd = .ok .refill ↔ cmd = 0x00000002) ∧
  (∀ cmd : CommandWord, decode cmd = .ok .nextword ↔ cmd = 0x00000003) ∧
  ∀ (s : State) (t : Transaction s.width), s.takes t →
    (t.cmd.toNat % 16 = 2 ∧ t.cmd ≠ 0x00000002) ∨ (t.cmd.toNat % 16 = 3 ∧ t.cmd ≠ 0x00000003) →
    t.cmd.toNat / 16 ≠ 0 ∧ step s = .next (s.answered s.block { status := .illegalCommand, data := [] })

/-- A SEED word is one with `OPC = 1`, `cmd[31:17] = 0` and `MLEN` at most 256, and its counts are the unscaled fields
`cmd[12:4]` and `cmd[16:13]`; every register count of four bits and the memory count 256 have a word (R74). -/
def Obligations.SeedFieldsAreCounts : Prop :=
  (∀ (cmd : CommandWord) (mlen rlen : Nat), decode cmd = .ok (.seed mlen rlen) ↔
    cmd.toNat % 16 = 1 ∧ cmd.toNat / 2 ^ 17 = 0 ∧ mlen = cmd.toNat / 2 ^ 4 % 2 ^ 9 ∧ rlen = cmd.toNat / 2 ^ 13 % 2 ^ 4 ∧
      mlen ≤ 256) ∧
  (∀ rlen ≤ 15, ∃ cmd, decode cmd = .ok (.seed 0 rlen)) ∧ ∃ cmd, decode cmd = .ok (.seed 256 0)

/-- The assembler's SEED carries its two lists: its word decodes to their lengths, and the decoded counts take the
memory words and then the register words back out of the payload. A list longer than its field is refused (R79, R80,
R84). -/
def Obligations.AssembledSeedCarriesItsLists : Prop :=
  ∀ (w : Width) (mem regs : List (Word w)),
    (mem.length ≤ 256 → regs.length ≤ 15 → ∃ t : Transaction w,
      seedTransaction mem regs = some t ∧
      decode t.cmd = .ok (.seed mem.length regs.length) ∧
      t.payload.length = expectedPayloadLength (.seed mem.length regs.length) ∧
      seedMemoryWords mem.length t.payload = mem ∧
      seedRegisterWords mem.length regs.length t.payload = regs) ∧
    (256 < mem.length ∨ 15 < regs.length → seedTransaction mem regs = none)

/-! ## Steps -/

/-- A step on a command that decodes is the command, on that state, with that transaction's payload. -/
def Obligations.StepRunsDecodedCommand : Prop :=
  ∀ (s : State) (t : Transaction s.width) (i : Instr), s.takes t → decode t.cmd = .ok i →
    step s = exec i s ∧ s.payload = t.payload

/-- A word placed as the next command runs on the very next step, with as many payload words as it expects. How a
word comes to the port is the model's choice (log entry 3). -/
def Obligations.FetchedWordRuns : Prop :=
  ∀ (s : State) (word : Nat) (i : Instr), decodeTableWord 32 word = some i →
    step (s.withFetchWord 32 word) = exec i (s.withFetchWord 32 word) ∧
    (s.withFetchWord 32 word).payload.length = expectedPayloadLength i

/-- An illegal word is answered with ILLEGAL_COMMAND and no data, whatever its payload, and changes nothing else
(60_exceptions.md R201, R202). -/
def Obligations.IllegalWordChangesNothing : Prop :=
  ∀ (s : State) (t : Transaction s.width) (e : Illegal), s.takes t → decode t.cmd = .error e →
    step s = .next (s.answered s.block { status := .illegalCommand, data := [] })

/-- Without an input the block is idle and holds its state (60_exceptions.md R217). That an idle machine steps at all is
the model's choice (log entry 4). -/
def Obligations.IdleStepHoldsState : Prop :=
  ∀ s : State, s.port.pending = [] → step s = .next s

/-- A step always answers a next state: nothing makes the block stop (60_exceptions.md R207, R209, R210).
The statement is over every state, so it also covers steps the rules do not speak of, where it is the model's choice: that
the idle machine steps, and that no step is a fault or a refusal (log entry 4); and the steps at and after a loss of power
(log entry 6). -/
def Obligations.StepNeverStops : Prop :=
  ∀ s : State, ∃ t : State, step s = .next t

/-- No step changes the width (10_state.md R28). That State holds it is the model's choice (log entry 1), and
so are the idle step (log entry 4) and the step at a loss of power (log entry 6), which the statement covers too. -/
def Obligations.WidthIsFixed : Prop :=
  ∀ s t : State, step s = .next t → t.width = s.width

/-! ## Reset and power -/

/-- Reset, from every state, leaves `m`, `a`, `b`, `c` and `ridx` as a SEED with no payload does from any state of the
same width, keeps the width, gives no response, and waits for the next command (70_reset_and_hazards.md R230). What `r`
holds is not said (log entry 2). The model's choices in it: the inputs that wait behind the reset and the responses given
before it are kept (log entry 7), and waiting is a step that leaves the state as it is (log entry 4). -/
def Obligations.ResetFromAnyState : Prop :=
  ∀ (w : Width) (b : Block w) (rest : List (HostInput w)) (rs : List (Response w)) (n : Nat),
    ∃ b' : Block w,
      step ⟨w, b, ⟨.reset :: rest, rs⟩, n⟩ = .next ⟨w, b', ⟨rest, rs⟩, n⟩ ∧
      SeedRecurrence [] (defaultOctet w) b'.m ∧ b'.a = 0 ∧ b'.b = 0 ∧ b'.c = 0 ∧ b'.ridx.val = 256 ∧
      (rest = [] → step ⟨w, b', ⟨rest, rs⟩, n⟩ = .next ⟨w, b', ⟨rest, rs⟩, n⟩) ∧
      ∀ (b0 : Block w) (p0 : Port w) (n0 : Nat), State.payload ⟨w, b0, p0, n0⟩ = [] →
        ∃ b1 : Block w, exec (.seed 0 0) ⟨w, b0, p0, n0⟩ =
            .next (State.answered ⟨w, b0, p0, n0⟩ b1 { status := .ok, data := [] }) ∧
          b1.m = b'.m ∧ b1.a = b'.a ∧ b1.b = b'.b ∧ b1.c = b'.c ∧ b1.ridx = b'.ridx

/-- Reset during a command abandons it: the step is the step of a reset between commands, so no response is produced and
no effect of the command is left (70_reset_and_hazards.md R234). That the inputs that wait behind the reset and the earlier
responses are kept is the model's choice (log entry 7). -/
def Obligations.ResetDuringCommandAbandonsIt : Prop :=
  ∀ (w : Width) (b : Block w) (t : Transaction w) (rest : List (HostInput w)) (rs : List (Response w)) (n : Nat),
    step ⟨w, b, ⟨.resetDuring t :: rest, rs⟩, n⟩ = step ⟨w, b, ⟨.reset :: rest, rs⟩, n⟩ ∧
    ∃ b' : Block w, step ⟨w, b, ⟨.resetDuring t :: rest, rs⟩, n⟩ = .next ⟨w, b', ⟨rest, rs⟩, n⟩ ∧
      SeedRecurrence [] (defaultOctet w) b'.m ∧ b'.a = 0 ∧ b'.b = 0 ∧ b'.c = 0 ∧ b'.ridx.val = 256

/-- A loss of power keeps the width and gives no response; whatever it leaves in the block, a reset after it makes the
block the one R36 names (60_exceptions.md R217). The model's choices in it: commands and resets go on being taken after the
loss, and the loss drops no waiting input (log entry 6); and the reset keeps the inputs that wait behind it (log entry 7). -/
def Obligations.ResetAfterPowerLoss : Prop :=
  ∀ (w : Width) (b : Block w) (rest : List (HostInput w)) (rs : List (Response w)) (n : Nat),
    ∃ b1 b2 : Block w,
      step ⟨w, b, ⟨.powerLoss :: .reset :: rest, rs⟩, n⟩ = .next ⟨w, b1, ⟨.reset :: rest, rs⟩, n + 1⟩ ∧
      step ⟨w, b1, ⟨.reset :: rest, rs⟩, n + 1⟩ = .next ⟨w, b2, ⟨rest, rs⟩, n + 1⟩ ∧
      SeedRecurrence [] (defaultOctet w) b2.m ∧ b2.a = 0 ∧ b2.b = 0 ∧ b2.c = 0 ∧ b2.ridx.val = 256

/-- The state after reset, for both widths (10_state.md R36); the port is empty (log entry 3). What `r` holds is not
said (log entry 2). -/
def Obligations.ResetStateIsTheDefaultSeed : Prop :=
  ∀ w : Width,
    (State.resetOf w).width = w ∧ (State.resetOf w).port = ⟨[], []⟩ ∧
    SeedRecurrence [] (defaultOctet w) (State.resetOf w).block.m ∧
    (State.resetOf w).block.a = 0 ∧ (State.resetOf w).block.b = 0 ∧ (State.resetOf w).block.c = 0 ∧
    (State.resetOf w).block.ridx.val = 256

/-- Constructing with a register list whose length is neither 0 nor 8 answers INVALID_SEED_CONFIGURATION and leaves the
reset state in place (70_reset_and_hazards.md R231). -/
def Obligations.ConstructorWithBadRegisters : Prop :=
  ∀ (w : Width) (mem regs : List (Word w)), mem.length ≤ 256 → regs.length ≤ 15 → regs.length ≠ 0 → regs.length ≠ 8 →
    ∃ s : State, State.construct w (some (mem, regs)) = some s ∧
      step s = .next { State.resetOf w with
        port := { pending := [], responses := [{ status := .invalidSeedConfiguration, data := [] }] } }

/-! ## Statuses (60_exceptions.md) -/

/-- Every command gets exactly one response, and its status is the first that applies of ILLEGAL_COMMAND,
PAYLOAD_LENGTH_MISMATCH and INVALID_SEED_CONFIGURATION, else OK (R202). -/
def Obligations.StatusFollowsThePriorityList : Prop :=
  ∀ (s : State) (t : Transaction s.width), s.takes t →
    ∃ (b : Block s.width) (r : Response s.width), step s = .next (s.answered b r) ∧
      r.status = match decode t.cmd with
        | .error _ => .illegalCommand
        | .ok (.seed mlen rlen) =>
          if t.payload.length ≠ mlen + rlen then .payloadLengthMismatch
          else if rlen ≠ 0 ∧ rlen ≠ 8 then .invalidSeedConfiguration
          else .ok
        | .ok .refill => if t.payload.length ≠ 0 then .payloadLengthMismatch else .ok
        | .ok .nextword => if t.payload.length ≠ 0 then .payloadLengthMismatch else .ok

/-- When each status but ILLEGAL_COMMAND is given: INVALID_SEED_CONFIGURATION exactly for `RLEN` in 1..7 or 9..15 with a
payload of the expected length (R204), PAYLOAD_LENGTH_MISMATCH exactly for a decoded command whose payload has another
length (R206), and OK in every other case of a decoded command (R207). -/
def Obligations.ErrorStatusesExactly : Prop :=
  ∀ (s : State) (t : Transaction s.width), s.takes t →
    ∃ (b : Block s.width) (r : Response s.width), step s = .next (s.answered b r) ∧
      (r.status = .invalidSeedConfiguration ↔ ∃ mlen rlen, decode t.cmd = .ok (.seed mlen rlen) ∧
        t.payload.length = mlen + rlen ∧ ((1 ≤ rlen ∧ rlen ≤ 7) ∨ (9 ≤ rlen ∧ rlen ≤ 15))) ∧
      (r.status = .payloadLengthMismatch ↔
        (∃ mlen rlen, decode t.cmd = .ok (.seed mlen rlen) ∧ t.payload.length ≠ mlen + rlen) ∨
        ((decode t.cmd = .ok .refill ∨ decode t.cmd = .ok .nextword) ∧ t.payload.length ≠ 0)) ∧
      (r.status = .ok ↔
        (∃ mlen rlen, decode t.cmd = .ok (.seed mlen rlen) ∧ t.payload.length = mlen + rlen ∧ (rlen = 0 ∨ rlen = 8)) ∨
        ((decode t.cmd = .ok .refill ∨ decode t.cmd = .ok .nextword) ∧ t.payload.length = 0))

/-- A command whose status is not OK changes no state of the block, and its response carries no data (R201). -/
def Obligations.FailingCommandChangesNothing : Prop :=
  ∀ (s : State) (t : Transaction s.width) (b : Block s.width) (r : Response s.width), s.takes t →
    step s = .next (s.answered b r) → r.status ≠ .ok → b = s.block ∧ r.data = []

/-- A command writes `m`, `a`, `b` or `c` only if it is a SEED, a REFILL, or a NEXTWORD on an empty buffer, and `r` only
if it is one of the last two (10_state.md R21, R22, R37). -/
def Obligations.OnlySeedAndRefillWriteStorage : Prop :=
  ∀ (s : State) (t : Transaction s.width) (b : Block s.width) (r : Response s.width), s.takes t →
    step s = .next (s.answered b r) →
    (b.m ≠ s.block.m ∨ b.a ≠ s.block.a ∨ b.b ≠ s.block.b ∨ b.c ≠ s.block.c →
      (∃ mlen rlen, decode t.cmd = .ok (.seed mlen rlen)) ∨ decode t.cmd = .ok .refill ∨
        (decode t.cmd = .ok .nextword ∧ s.block.ridx.val = 256)) ∧
    (b.r ≠ s.block.r →
      decode t.cmd = .ok .refill ∨ (decode t.cmd = .ok .nextword ∧ s.block.ridx.val = 256))

/-! ## SEED (41_seeder.md) -/

/-- SEED completes for `RLEN` 0 or 8 and a payload of the expected length: the working memory is what two passes of 32
groups leave, the registers are cleared, the buffer is discarded, `r` and everything else is unchanged, and the response
is `(OK, [])` (R121 to R128; what R127 adds of the NEXTWORD after it is NextwordAfterSeed). -/
def Obligations.SeedLeavesTheRecurrence : Prop :=
  ∀ (mlen rlen : Nat) (s : State), rlen = 0 ∨ rlen = 8 → s.payload.length = mlen + rlen →
    ∃ b : Block s.width, exec (.seed mlen rlen) s = .next (s.answered b { status := .ok, data := [] }) ∧
      SeedRecurrence (s.payload.take mlen)
        (if rlen = 8 then Octet.ofFn fun k => s.payload.getD (mlen + k.val) 0 else defaultOctet s.width) b.m ∧
      b.a = 0 ∧ b.b = 0 ∧ b.c = 0 ∧ b.ridx.val = 256 ∧ b.r = s.block.r

/-- The seeding equations fix the working memory. -/
def Obligations.SeedRecurrenceHasOneSolution : Prop :=
  ∀ (w : Width) (mem : List (Word w)) (start : Octet w) (m m' : Bank w),
    SeedRecurrence mem start m → SeedRecurrence mem start m' → m = m'

/-- SEED is turned away with PAYLOAD_LENGTH_MISMATCH for a payload of another length, else with
INVALID_SEED_CONFIGURATION for `RLEN` neither 0 nor 8, and then changes nothing (R120). -/
def Obligations.SeedTurnedAway : Prop :=
  ∀ (mlen rlen : Nat) (s : State),
    (s.payload.length ≠ mlen + rlen →
      exec (.seed mlen rlen) s = .next (s.answered s.block { status := .payloadLengthMismatch, data := [] })) ∧
    (s.payload.length = mlen + rlen → rlen ≠ 0 → rlen ≠ 8 →
      exec (.seed mlen rlen) s = .next (s.answered s.block { status := .invalidSeedConfiguration, data := [] }))

/-- A successful SEED leaves a state that does not depend on the block before it, but for words of `r` that no command
can read (R129). -/
def Obligations.SeedIgnoresPriorState : Prop :=
  ∀ (w : Width) (b1 b2 : Block w) (p1 p2 : Port w) (n1 n2 mlen rlen : Nat), rlen = 0 ∨ rlen = 8 →
    State.payload ⟨w, b1, p1, n1⟩ = State.payload ⟨w, b2, p2, n2⟩ →
    (State.payload ⟨w, b1, p1, n1⟩).length = mlen + rlen →
    ∃ c1 c2 : Block w,
      exec (.seed mlen rlen) ⟨w, b1, p1, n1⟩ =
        .next (State.answered ⟨w, b1, p1, n1⟩ c1 { status := .ok, data := [] }) ∧
      exec (.seed mlen rlen) ⟨w, b2, p2, n2⟩ =
        .next (State.answered ⟨w, b2, p2, n2⟩ c2 { status := .ok, data := [] }) ∧
      c1.SameButConsumed c2

/-- Two equal SEED commands leave the state one of them leaves (20_memory.md R57). -/
def Obligations.SeedIsIdempotent : Prop :=
  ∀ (w : Width) (b : Block w) (t : Transaction w) (rest : List (HostInput w)) (rs : List (Response w)) (n mlen rlen : Nat),
    decode t.cmd = .ok (.seed mlen rlen) →
    ∃ (b1 : Block w) (r1 r2 : Response w),
      step ⟨w, b, ⟨.command t :: .command t :: rest, rs⟩, n⟩ = .next ⟨w, b1, ⟨.command t :: rest, rs ++ [r1]⟩, n⟩ ∧
      step ⟨w, b1, ⟨.command t :: rest, rs ++ [r1]⟩, n⟩ = .next ⟨w, b1, ⟨rest, rs ++ [r1] ++ [r2]⟩, n⟩

/-- The seeds that leave the same block: a seed and the same seed followed by zero words, and no registers and the
default octet as registers. A seed without words leaves what reset leaves (R130). -/
def Obligations.EquivalentSeeds : Prop :=
  ∀ (w : Width) (b : Block w) (cmd : CommandWord) (rest : List (HostInput w)) (rs : List (Response w)) (n : Nat)
    (mem : List (Word w)) (zeros : Nat),
    mem.length + zeros ≤ 256 →
    ∃ b' : Block w,
      exec (.seed mem.length 0) ⟨w, b, ⟨.command ⟨cmd, mem⟩ :: rest, rs⟩, n⟩ =
        .next ⟨w, b', ⟨rest, rs ++ [⟨.ok, []⟩]⟩, n⟩ ∧
      exec (.seed (mem.length + zeros) 0)
          ⟨w, b, ⟨.command ⟨cmd, mem ++ List.replicate zeros 0⟩ :: rest, rs⟩, n⟩ =
        .next ⟨w, b', ⟨rest, rs ++ [⟨.ok, []⟩]⟩, n⟩ ∧
      exec (.seed mem.length 8)
          ⟨w, b, ⟨.command ⟨cmd, mem ++ List.ofFn (defaultOctet w).get⟩ :: rest, rs⟩, n⟩ =
        .next ⟨w, b', ⟨rest, rs ++ [⟨.ok, []⟩]⟩, n⟩ ∧
      (mem = [] → b'.m = (State.resetOf w).block.m ∧ b'.a = 0 ∧ b'.b = 0 ∧ b'.c = 0 ∧ b'.ridx.val = 256)

/-- A seed of zero words with eight zero registers leaves every word of `m` zero, at both widths (R131). -/
def Obligations.ZeroSeedStaysZero : Prop :=
  ∀ (mlen : Nat) (s : State), s.payload.length = mlen + 8 → (∀ x ∈ s.payload, x = 0) →
    ∃ b : Block s.width, exec (.seed mlen 8) s = .next (s.answered b { status := .ok, data := [] }) ∧
      ∀ i, b.m.read i = 0

/-! ## The Mixer (42_mixer.md) -/

/-- Each Mixer is a bijection on octets (R143). -/
def Obligations.MixerIsBijective : Prop :=
  ∀ w : Width, Function.Bijective (mix w)

/-- Each Mixer equals its generic form, the eight stages run in order (R140, R141). -/
def Obligations.MixerMatchesGenericForm : Prop :=
  (∀ q : Octet .w32, mix .w32 q = (List.finRange 8).foldl genericStage32 q) ∧
  (∀ q : Octet .w64, mix .w64 q = (List.finRange 8).foldl genericStage64 q)

/-- One application does not reach every output: at 32 bits `q[7]` never reaches `q[3]`, `q[4]` and `q[5]`, and at 64
bits `q[3]` never reaches `q[0]`; bit 0 of `q[3]` leaves `q[1]` unchanged for some octets and changes it for others. All four
clauses follow from the operation lists R140 and R141. The fourth contradicts R145, which says that bit 0 of `q[3]` leaves
`q[1]` unchanged: the model follows the lists (log entry 14). -/
def Obligations.MixerReachIsLimited : Prop :=
  (∀ (q : Octet .w32) (x : Word .w32), (mix .w32 { q with h := x }).d = (mix .w32 q).d ∧
    (mix .w32 { q with h := x }).e = (mix .w32 q).e ∧ (mix .w32 { q with h := x }).f = (mix .w32 q).f) ∧
  (∀ (q : Octet .w64) (x : Word .w64), (mix .w64 { q with d := x }).a = (mix .w64 q).a) ∧
  (∃ q : Octet .w64, (mix .w64 { q with d := q.d ^^^ 1 }).b = (mix .w64 q).b) ∧
  (∃ q : Octet .w64, (mix .w64 { q with d := q.d ^^^ 1 }).b ≠ (mix .w64 q).b)

/-! ## The lookup (40_word.md) -/

/-- The indirection index is `v[9:2]` at 32 bits and `v[10:3]` at 64; it equals `(v >> L) & 0xff`; and the second lookup
of a step uses `y[17:10]` or `y[18:11]` (R108). -/
def Obligations.IndirectIndexIsAByteOfTheWord : Prop :=
  (∀ v : Word .w32, (indirectIndex v).val = v.toNat / 2 ^ 2 % 2 ^ 8 ∧
    (indirectIndex (v >>> 8)).val = v.toNat / 2 ^ 10 % 2 ^ 8) ∧
  (∀ v : Word .w64, (indirectIndex v).val = v.toNat / 2 ^ 3 % 2 ^ 8 ∧
    (indirectIndex (v >>> 8)).val = v.toNat / 2 ^ 11 % 2 ^ 8) ∧
  ∀ (w : Width) (v : Word w),
    (indirectIndex v).val = ((v &&& indirectMask w) >>> w.logBytes).toNat ∧
    (indirectIndex v).val = ((v >>> w.logBytes) &&& 255).toNat ∧
    indirectIndex (0 : Word w) = 0 ∧ indirectIndex (BitVec.allOnes w.bits) = 255

/-! ## REFILL (43_refiller.md) -/

/-- The a-updates by the arithmetic of 00_scope.md R10: the left shift multiplies modulo `2^W`, the right shift divides,
and the complement is taken from `2^W - 1` (R163, R164). -/
def Obligations.AUpdateByArithmetic : Prop :=
  (∀ a : Word .w32,
    (aUpdate .w32 a 0).toNat = a.toNat ^^^ (a.toNat * 2 ^ 13 % 2 ^ 32) ∧
    (aUpdate .w32 a 1).toNat = a.toNat ^^^ (a.toNat / 2 ^ 6) ∧
    (aUpdate .w32 a 2).toNat = a.toNat ^^^ (a.toNat * 2 ^ 2 % 2 ^ 32) ∧
    (aUpdate .w32 a 3).toNat = a.toNat ^^^ (a.toNat / 2 ^ 16)) ∧
  (∀ a : Word .w64,
    (aUpdate .w64 a 0).toNat = 2 ^ 64 - 1 - (a.toNat ^^^ (a.toNat * 2 ^ 21 % 2 ^ 64)) ∧
    (aUpdate .w64 a 1).toNat = a.toNat ^^^ (a.toNat / 2 ^ 5) ∧
    (aUpdate .w64 a 2).toNat = a.toNat ^^^ (a.toNat * 2 ^ 12 % 2 ^ 64) ∧
    (aUpdate .w64 a 3).toNat = a.toNat ^^^ (a.toNat / 2 ^ 33))

/-- REFILL completes with an empty payload: the new block meets the refill equations, the cursor is 0, the response
carries the 256 words of the new `r` in index order, and nothing else of the machine changes (R161, R162, R165 to
R169; what R167 adds of the NEXTWORD after it is NextwordAfterRefill). -/
def Obligations.RefillFollowsTheRecurrence : Prop :=
  ∀ s : State, s.payload = [] →
    ∃ b : Block s.width, exec .refill s = .next (s.answered b { status := .ok, data := b.r.toList }) ∧
      s.block.RefillsTo b ∧ b.r.toList.length = 256

/-- The refill equations fix the new block. -/
def Obligations.RefillRecurrenceHasOneSolution : Prop :=
  ∀ (w : Width) (s t t' : Block w), s.RefillsTo t → s.RefillsTo t' → t = t'

/-- A refill is a function of `m`, `a`, `b` and `c`: neither the cursor nor the old words of `r` reach its result
(10_state.md R38). -/
def Obligations.RefillIgnoresCursorAndOldBlock : Prop :=
  ∀ (w : Width) (s t : Block w) (p : Port w) (n : Nat), s.m = t.m → s.a = t.a → s.b = t.b → s.c = t.c →
    State.payload ⟨w, s, p, n⟩ = [] →
    ∃ u : State, exec .refill ⟨w, s, p, n⟩ = .next u ∧ exec .refill ⟨w, t, p, n⟩ = .next u

/-- A refill at `c = 2^W - 1` completes: it sets `c` to 0 and adds 0 to `b`, and otherwise follows the equations (R172,
10_state.md R25). -/
def Obligations.CounterWraps : Prop :=
  ∀ s : State, s.payload = [] → s.block.c = BitVec.allOnes s.width.bits →
    ∃ b : Block s.width, exec .refill s = .next (s.answered b { status := .ok, data := b.r.toList }) ∧
      b.c = 0 ∧ RefillRecurrence s.block.m b.m b.r s.block.a s.block.b b.a b.b

/-- REFILL and NEXTWORD with a payload are turned away with PAYLOAD_LENGTH_MISMATCH and change nothing (R160,
44_extractor.md R190). -/
def Obligations.OperandlessCommandsRefuseAPayload : Prop :=
  ∀ s : State, s.payload ≠ [] →
    exec .refill s = .next (s.answered s.block { status := .payloadLengthMismatch, data := [] }) ∧
    exec .nextword s = .next (s.answered s.block { status := .payloadLengthMismatch, data := [] })

/-! ## NEXTWORD (44_extractor.md) -/

/-- Within a block NEXTWORD completes: it returns `r[ridx]`, moves the cursor on by one, and changes nothing else
(R191). -/
def Obligations.NextwordServesTheCursor : Prop :=
  ∀ (s : State) (h : s.block.ridx.val < 256), s.payload = [] →
    exec .nextword s = .next (s.answered
      { s.block with ridx := ⟨s.block.ridx.val + 1, Nat.succ_lt_succ h⟩ }
      { status := .ok, data := [s.block.r.read ⟨s.block.ridx.val, h⟩] })

/-- On an empty buffer NEXTWORD completes: it refills, returns the new `r[0]`, and leaves the cursor at 1 (R190). -/
def Obligations.NextwordRefillsFirst : Prop :=
  ∀ s : State, s.block.ridx.val = 256 → s.payload = [] →
    ∃ b : Block s.width, s.block.RefillsTo b ∧
      exec .nextword s = .next (s.answered { b with ridx := 1 } { status := .ok, data := [b.r.read 0] })

/-- From an empty buffer, 256 NEXTWORD commands return the words of one new block in index order, each once, and leave
the buffer empty again (R192). -/
def Obligations.NextwordsWalkTheBlock : Prop :=
  ∀ (w : Width) (b : Block w) (rest : List (HostInput w)) (rs : List (Response w)) (n : Nat), b.ridx.val = 256 →
    ∃ b' : Block w, b.RefillsTo b' ∧
      Sys2Proof.core.run 256 (State.mk w b ⟨nextwords w 256 ++ rest, rs⟩ n) =
        .next (State.mk w { b' with ridx := 256 }
          ⟨rest, rs ++ b'.r.toList.map fun x => { status := .ok, data := [x] }⟩ n)

/-- The NEXTWORD number `256 k + 1` after a SEED runs refill number `k + 1`, returns the new `r[0]`, and leaves
`c = k + 1` modulo `2^W` (R193). -/
def Obligations.NextwordCountsBlocks : Prop :=
  ∀ (w : Width) (b : Block w) (rest : List (HostInput w)) (rs : List (Response w)) (n k : Nat),
    b.ridx.val = 256 → b.c = 0 →
    ∃ (blocks : Nat → Block w) (rs' : List (Response w)),
      blocks 0 = b ∧ (∀ i ≤ k, (blocks i).RefillsTo (blocks (i + 1))) ∧
      Sys2Proof.core.run (256 * k + 1) (State.mk w b ⟨nextwords w (256 * k + 1) ++ rest, rs⟩ n) =
        .next (State.mk w { blocks (k + 1) with ridx := 1 }
          ⟨rest, rs ++ rs' ++ [{ status := .ok, data := [(blocks (k + 1)).r.read 0] }]⟩ n) ∧
      (blocks (k + 1)).c = BitVec.ofNat w.bits (k + 1) ∧ rs'.length = 256 * k

/-- The consumed words of `r` cannot be observed: from two blocks that differ only there, every step gives the same port
and again blocks that differ at most there (10_state.md R27). Where the step takes a loss of power this rests on the model's
choice that the free contents depend on the number of losses and not on the block before (log entry 6); the idle step is
the model's choice too (log entry 4), and so is that a reset keeps what waits (log entry 7). -/
def Obligations.ConsumedWordsAreUnobservable : Prop :=
  ∀ (w : Width) (b1 b2 : Block w) (p : Port w) (n : Nat), b1.SameButConsumed b2 →
    ∃ (c1 c2 : Block w) (q : Port w) (k : Nat),
      step ⟨w, b1, p, n⟩ = .next ⟨w, c1, q, k⟩ ∧ step ⟨w, b2, p, n⟩ = .next ⟨w, c2, q, k⟩ ∧ c1.SameButConsumed c2

/-- The NEXTWORD after a REFILL returns `r[0]` of that REFILL's block (R194). -/
def Obligations.NextwordAfterRefill : Prop :=
  ∀ (w : Width) (b : Block w) (rest : List (HostInput w)) (rs : List (Response w)) (n : Nat),
    ∃ b' : Block w, b.RefillsTo b' ∧
      Sys2Proof.core.run 2 (State.mk w b
          ⟨.command (plainTransaction .refill) :: .command (plainTransaction .nextword) :: rest, rs⟩ n) =
        .next (State.mk w { b' with ridx := 1 }
          ⟨rest, rs ++ [{ status := .ok, data := b'.r.toList }, { status := .ok, data := [b'.r.read 0] }]⟩ n)

/-- The NEXTWORD after a successful SEED returns the first word of a refill of the seeded block, whatever was buffered
before (41_seeder.md R127, R194). -/
def Obligations.NextwordAfterSeed : Prop :=
  ∀ (w : Width) (b : Block w) (mem regs : List (Word w)) (t : Transaction w) (rest : List (HostInput w))
    (rs : List (Response w)) (n : Nat),
    regs.length = 0 ∨ regs.length = 8 → seedTransaction mem regs = some t →
    ∃ b1 b2 : Block w,
      SeedRecurrence mem (if regs.length = 8 then Octet.ofWords regs else defaultOctet w) b1.m ∧
      b1.a = 0 ∧ b1.b = 0 ∧ b1.c = 0 ∧ b1.RefillsTo b2 ∧
      Sys2Proof.core.run 2 (State.mk w b ⟨.command t :: .command (plainTransaction .nextword) :: rest, rs⟩ n) =
        .next (State.mk w { b2 with ridx := 1 }
          ⟨rest, rs ++ [{ status := .ok, data := [] }, { status := .ok, data := [b2.r.read 0] }]⟩ n)

/-! ## The invariant -/

/-- Every step from a state that meets the invariant leaves one that meets it: responses keep the forms the spec gives
them, and while words are buffered `b` holds the last word of the block (43_refiller.md R166, 30_encoding.md R81).
That the idle machine steps (log entry 4), what exec and a reset leave at the port (log entries 3 and 7), and that a waiting
loss of power is shut out because of its free contents (log entry 6), are the model's choices. -/
def Obligations.StepKeepsTheInvariant : Prop :=
  ∀ s t : State, s.Inv → step s = .next t → t.Inv

/-- The state after reset meets the invariant, at both widths. -/
def Obligations.ResetMeetsTheInvariant : Prop :=
  State.reset.Inv ∧ ∀ w : Width, (State.resetOf w).Inv
end

