-- ==== Sys2Proof/Laws/Bank.lean ====
section
/-! SUPPORT. The laws of the two arrays: a read after a write, the groups a seeding visits, and the index the
indirection computes. -/

namespace Sys2Proof.Machine

variable {w : Width}

@[simp] theorem Bank.read_write_same (m : Bank w) (i : Fin 256) (v : Word w) : (m.write i v).read i = v := by
  simp [Bank.read, Bank.write]

theorem Bank.read_write_other (m : Bank w) {i j : Fin 256} (v : Word w) (h : i ≠ j) :
    (m.write i v).read j = m.read j := by
  have h' : i.val ≠ j.val := fun e => h (Fin.ext e)
  simp [Bank.read, Bank.write, Vector.getElem_set_ne, h']

theorem Bank.read_write (m : Bank w) (i j : Fin 256) (v : Word w) :
    (m.write i v).read j = if i = j then v else m.read j := by
  by_cases h : i = j
  · subst h; simp
  · simp [Bank.read_write_other _ _ h, h]

/-- Two arrays that read the same everywhere are the same data. -/
theorem Bank.ext {m m' : Bank w} (h : ∀ i : Fin 256, m.read i = m'.read i) : m = m' :=
  Vector.ext fun i hi => h ⟨i, hi⟩

@[simp] theorem Bank.read_fill (v : Word w) (i : Fin 256) : (Bank.fill v).read i = v := by
  simp [Bank.read, Bank.fill]

@[simp] theorem Bank.read_ofPrefix (words : List (Word w)) (i : Fin 256) :
    (Bank.ofPrefix words).read i = words.getD i.val 0 := by
  simp [Bank.read, Bank.ofPrefix]

@[simp] theorem Bank.length_toList (m : Bank w) : m.toList.length = 256 := by simp

/-! ## Octets -/

@[simp] theorem Octet.get_ofFn (f : Fin 8 → Word w) (k : Fin 8) : (Octet.ofFn f).get k = f k := by
  fin_cases k <;> rfl

theorem Octet.ext_get {p q : Octet w} (h : ∀ k, p.get k = q.get k) : p = q := by
  cases p; cases q
  simp only [Octet.mk.injEq]
  exact ⟨h 0, h 1, h 2, h 3, h 4, h 5, h 6, h 7⟩

@[simp] theorem Octet.ofFn_get (q : Octet w) : Octet.ofFn q.get = q := Octet.ext_get fun k => Octet.get_ofFn _ k

@[simp] theorem Octet.get_set (q : Octet w) (k j : Fin 8) (v : Word w) :
    (q.set k v).get j = if j = k then v else q.get j := by simp [Octet.set]

/-! ## Groups -/

theorem groupIndex_inj {g g' : Fin 32} {k k' : Fin 8} (h : groupIndex g k = groupIndex g' k') : g = g' ∧ k = k' := by
  have h' := congrArg Fin.val h
  simp only [groupIndex] at h'
  omega

/-- Every index is a word of exactly one group. -/
theorem exists_groupIndex (i : Fin 256) : ∃ g k, groupIndex g k = i :=
  ⟨⟨i.val / 8, by omega⟩, ⟨i.val % 8, by omega⟩, Fin.ext (by simp only [groupIndex]; omega)⟩

theorem Bank.read_setGroup_same (m : Bank w) (g : Fin 32) (q : Octet w) (k : Fin 8) :
    (m.setGroup g q).read (groupIndex g k) = q.get k := by
  have ne : ∀ i j : Fin 8, i ≠ j → groupIndex g i ≠ groupIndex g j := fun i j h e => h (groupIndex_inj e).2
  fin_cases k <;> simp [Bank.setGroup, Bank.read_write, ne, Octet.get]

theorem Bank.read_setGroup_other (m : Bank w) {g : Fin 32} (q : Octet w) {i : Fin 256}
    (h : ∀ k, groupIndex g k ≠ i) : (m.setGroup g q).read i = m.read i := by
  simp [Bank.setGroup, Bank.read_write, h]

theorem Bank.group_setGroup_same (m : Bank w) (g : Fin 32) (q : Octet w) : (m.setGroup g q).group g = q :=
  Octet.ext_get fun k => by simp [Bank.group, Bank.read_setGroup_same]

theorem Bank.group_setGroup_other (m : Bank w) {g g' : Fin 32} (q : Octet w) (h : g ≠ g') :
    (m.setGroup g q).group g' = m.group g' :=
  Octet.ext_get fun k => by
    simp only [Bank.group, Octet.get_ofFn]
    exact Bank.read_setGroup_other m q fun j e => h (groupIndex_inj e).1

end Sys2Proof.Machine
end

