-- ==== Sys2Proof/Laws/Decode.lean ====
section
/-! SUPPORT. The fields of a command word as arithmetic, and what the decoder can answer. -/

namespace Sys2Proof

theorem opcodeField_toNat (cmd : CommandWord) : (opcodeField cmd).toNat = cmd.toNat % 16 := by
  simp [opcodeField, BitVec.extractLsb'_toNat]

theorem memoryCountField_eq (cmd : CommandWord) : memoryCountField cmd = cmd.toNat / 16 % 512 := by
  simp [memoryCountField, BitVec.extractLsb'_toNat, Nat.shiftRight_eq_div_pow]

theorem registerCountField_eq (cmd : CommandWord) : registerCountField cmd = cmd.toNat / 2 ^ 13 % 16 := by
  simp [registerCountField, BitVec.extractLsb'_toNat, Nat.shiftRight_eq_div_pow]

theorem upperReservedField_toNat (cmd : CommandWord) : (upperReservedField cmd).toNat = cmd.toNat / 2 ^ 17 := by
  have := cmd.isLt
  simp only [upperReservedField, BitVec.extractLsb'_toNat, Nat.shiftRight_eq_div_pow]
  omega

theorem operandlessReservedField_toNat (cmd : CommandWord) :
    (operandlessReservedField cmd).toNat = cmd.toNat / 16 := by
  have := cmd.isLt
  simp only [operandlessReservedField, BitVec.extractLsb'_toNat, Nat.shiftRight_eq_div_pow]
  omega

theorem opcodeField_eq {cmd : CommandWord} {k : BitVec 4} : opcodeField cmd = k ↔ cmd.toNat % 16 = k.toNat := by
  rw [← BitVec.toNat_inj, opcodeField_toNat]

theorem opcodeField_eq_one (cmd : CommandWord) : opcodeField cmd = 1 ↔ cmd.toNat % 16 = 1 := opcodeField_eq

theorem opcodeField_eq_two (cmd : CommandWord) : opcodeField cmd = 2 ↔ cmd.toNat % 16 = 2 := opcodeField_eq

theorem opcodeField_eq_three (cmd : CommandWord) : opcodeField cmd = 3 ↔ cmd.toNat % 16 = 3 := opcodeField_eq

theorem upperReservedField_eq_zero (cmd : CommandWord) : upperReservedField cmd = 0 ↔ cmd.toNat / 2 ^ 17 = 0 := by
  rw [← BitVec.toNat_inj, upperReservedField_toNat]; rfl

theorem operandlessReservedField_eq_zero (cmd : CommandWord) :
    operandlessReservedField cmd = 0 ↔ cmd.toNat / 16 = 0 := by
  rw [← BitVec.toNat_inj, operandlessReservedField_toNat]; rfl

/-- The decoder as arithmetic on the command word. -/
theorem decode_eq (cmd : CommandWord) : decode cmd =
    if cmd.toNat % 16 = 1 then
      if cmd.toNat / 2 ^ 17 ≠ 0 then .error .reservedBitSet
      else if cmd.toNat / 16 % 512 > 256 then .error .memoryCountReserved
      else .ok (.seed (cmd.toNat / 16 % 512) (cmd.toNat / 2 ^ 13 % 16))
    else if cmd.toNat % 16 = 2 then if cmd.toNat / 16 ≠ 0 then .error .reservedBitSet else .ok .refill
    else if cmd.toNat % 16 = 3 then if cmd.toNat / 16 ≠ 0 then .error .reservedBitSet else .ok .nextword
    else .error .reservedOpcode := by
  simp only [decode, decodeSeed, decodeOperandless, opcodeField_eq_one, opcodeField_eq_two, opcodeField_eq_three,
    ne_eq, upperReservedField_eq_zero, operandlessReservedField_eq_zero,
    memoryCountField_eq, registerCountField_eq]

/-- The number an encoded SEED is, its fields side by side. -/
theorem encode_seed_toNat {mlen rlen : Nat} (hm : mlen ≤ 256) (hr : rlen ≤ 15) :
    (encode (.seed mlen rlen)).toNat = rlen * 2 ^ 13 + mlen * 2 ^ 4 + 1 := by
  have h1 : (BitVec.ofNat 32 rlen <<< 13).toNat = 2 ^ 13 * rlen := by
    simp only [BitVec.toNat_shiftLeft, BitVec.toNat_ofNat, Nat.shiftLeft_eq]; omega
  have h2 : (BitVec.ofNat 32 mlen <<< 4).toNat = 2 ^ 4 * mlen := by
    simp only [BitVec.toNat_shiftLeft, BitVec.toNat_ofNat, Nat.shiftLeft_eq]; omega
  have h3 : 2 ^ 13 * rlen ||| 2 ^ 4 * mlen = 2 ^ 13 * rlen + 2 ^ 4 * mlen :=
    (Nat.two_pow_add_eq_or_of_lt (by omega) _).symm
  have h4 : 2 ^ 13 * rlen + 2 ^ 4 * mlen = 2 ^ 4 * (2 ^ 9 * rlen + mlen) := by omega
  have h5 : 2 ^ 4 * (2 ^ 9 * rlen + mlen) ||| 1 = 2 ^ 4 * (2 ^ 9 * rlen + mlen) + 1 :=
    (Nat.two_pow_add_eq_or_of_lt (by omega) _).symm
  simp only [encode, BitVec.toNat_or, h1, h2]
  rw [h3, h4, show (1 : BitVec 32).toNat = 1 from rfl, h5]
  omega

end Sys2Proof
end

