-- ==== Sys2Proof/Laws/State.lean ====
section
/-! SUPPORT. What each named update leaves in each field, and how a command ends. -/

namespace Sys2Proof.Machine

variable {w : Width}

/-! ## The port -/

@[simp] theorem Port.answer_pending (p : Port w) (st : Status) (d : List (Word w)) :
    (p.answer st d).pending = p.pending.tail := rfl
@[simp] theorem Port.answer_responses (p : Port w) (st : Status) (d : List (Word w)) :
    (p.answer st d).responses = p.responses ++ [{ status := st, data := d }] := rfl
@[simp] theorem Port.consume_pending (p : Port w) : p.consume.pending = p.pending.tail := rfl
@[simp] theorem Port.consume_responses (p : Port w) : p.consume.responses = p.responses := rfl

/-! ## The machine -/

@[simp] theorem State.complete_width (s : State) (b : Block s.width) (d : List (Word s.width)) :
    (s.complete b d).width = s.width := rfl
@[simp] theorem State.complete_block (s : State) (b : Block s.width) (d : List (Word s.width)) :
    (s.complete b d).block = b := rfl
@[simp] theorem State.complete_port (s : State) (b : Block s.width) (d : List (Word s.width)) :
    (s.complete b d).port = s.port.answer .ok d := rfl
@[simp] theorem State.complete_powerLosses (s : State) (b : Block s.width) (d : List (Word s.width)) :
    (s.complete b d).powerLosses = s.powerLosses := rfl
@[simp] theorem State.raise_width (s : State) (st : Status) : (s.raise st).width = s.width := rfl
@[simp] theorem State.raise_block (s : State) (st : Status) : (s.raise st).block = s.block := rfl
@[simp] theorem State.raise_port (s : State) (st : Status) : (s.raise st).port = s.port.answer st [] := rfl
@[simp] theorem State.raise_powerLosses (s : State) (st : Status) : (s.raise st).powerLosses = s.powerLosses := rfl
@[simp] theorem State.takeReset_width (s : State) : s.takeReset.width = s.width := rfl
@[simp] theorem State.takeReset_block (s : State) : s.takeReset.block = Block.reset s.width := rfl
@[simp] theorem State.takeReset_port (s : State) : s.takeReset.port = s.port.consume := rfl
@[simp] theorem State.takeReset_powerLosses (s : State) : s.takeReset.powerLosses = s.powerLosses := rfl
@[simp] theorem State.abandonCommand_eq (s : State) (t : Transaction s.width) : s.abandonCommand t = s.takeReset := rfl
@[simp] theorem State.losePower_width (s : State) : s.losePower.width = s.width := rfl
@[simp] theorem State.losePower_port (s : State) : s.losePower.port = s.port.consume := rfl
@[simp] theorem State.losePower_powerLosses (s : State) : s.losePower.powerLosses = s.powerLosses + 1 := rfl
@[simp] theorem State.idle_eq (s : State) : s.idle = s := rfl
@[simp] theorem State.submit_width (s : State) (ts : List (Transaction s.width)) : (s.submit ts).width = s.width := rfl
@[simp] theorem State.submit_block (s : State) (ts : List (Transaction s.width)) : (s.submit ts).block = s.block := rfl
@[simp] theorem State.submit_pending (s : State) (ts : List (Transaction s.width)) :
    (s.submit ts).port.pending = s.port.pending ++ ts.map .command := rfl
@[simp] theorem State.submit_responses (s : State) (ts : List (Transaction s.width)) :
    (s.submit ts).port.responses = s.port.responses := rfl
@[simp] theorem State.answered_width (s : State) (b : Block s.width) (r : Response s.width) :
    (s.answered b r).width = s.width := rfl
@[simp] theorem State.answered_block (s : State) (b : Block s.width) (r : Response s.width) :
    (s.answered b r).block = b := rfl
@[simp] theorem State.answered_pending (s : State) (b : Block s.width) (r : Response s.width) :
    (s.answered b r).port.pending = s.port.pending.tail := rfl
@[simp] theorem State.answered_responses (s : State) (b : Block s.width) (r : Response s.width) :
    (s.answered b r).port.responses = s.port.responses ++ [r] := rfl
@[simp] theorem State.resetOf_width (w : Width) : (State.resetOf w).width = w := rfl
@[simp] theorem State.resetOf_block (w : Width) : (State.resetOf w).block = Block.reset w := rfl

/-! ## What stands at the port -/

@[simp] theorem Port.nextInput_cons (x : HostInput w) (xs : List (HostInput w)) (rs : List (Response w)) :
    Port.nextInput { pending := x :: xs, responses := rs } = some x := rfl
@[simp] theorem Port.payload_command (t : Transaction w) (xs : List (HostInput w)) (rs : List (Response w)) :
    Port.payload { pending := .command t :: xs, responses := rs } = t.payload := rfl
@[simp] theorem State.nextInput_mk (b : Block w) (p : Port w) (n : Nat) :
    State.nextInput { width := w, block := b, port := p, powerLosses := n } = p.nextInput := rfl
@[simp] theorem State.payload_mk (b : Block w) (p : Port w) (n : Nat) :
    State.payload { width := w, block := b, port := p, powerLosses := n } = p.payload := rfl

/-! ## How a command ends -/

theorem State.complete_eq_answered (s : State) (b : Block s.width) (d : List (Word s.width)) :
    s.complete b d = s.answered b { status := .ok, data := d } := rfl

theorem State.raise_eq_answered (s : State) (st : Status) :
    s.raise st = s.answered s.block { status := st, data := [] } := rfl

/-- `finish` says once how a command can end: with its effects and data, or with an error and neither. -/
theorem State.finish_eq_answered (s : State) (st : Status) (b : Block s.width) (d : List (Word s.width)) :
    s.finish st b d =
      s.answered (if st = .ok then b else s.block) { status := st, data := if st = .ok then d else [] } := by
  cases st <;> rfl

@[simp] theorem State.finish_ok (s : State) (b : Block s.width) (d : List (Word s.width)) :
    s.finish .ok b d = s.complete b d := rfl

/-- The payload of the command at the head of the port. -/
theorem State.payload_of_takes {s : State} {t : Transaction s.width} (h : s.takes t) : s.payload = t.payload := by
  have h' : s.port.nextInput = some (.command t) := h
  simp only [State.payload, Port.payload, h']

theorem State.nextInput_none {s : State} : s.nextInput = none ↔ s.port.pending = [] := by
  simp [State.nextInput, Port.nextInput]

/-- A response says what it answered: equal answers have equal blocks and responses. -/
theorem State.answered_inj {s : State} {b b' : Block s.width} {r r' : Response s.width}
    (h : s.answered b r = s.answered b' r') : b = b' ∧ r = r' := by
  cases s
  simp only [State.answered, State.mk.injEq, Port.mk.injEq, heq_eq_eq, List.append_cancel_left_eq, List.cons.injEq,
    and_true, true_and] at h
  exact h

/-! ## The block -/

/-! What reset leaves in each field (10_state.md R36). -/

@[simp] theorem Block.reset_m (w : Width) : (Block.reset w).m = seedMemory w [] none := by unfold Block.reset; rfl
@[simp] theorem Block.reset_r (w : Width) : (Block.reset w).r = Bank.fill 0 := by unfold Block.reset; rfl
@[simp] theorem Block.reset_a (w : Width) : (Block.reset w).a = 0 := by unfold Block.reset; rfl
@[simp] theorem Block.reset_b (w : Width) : (Block.reset w).b = 0 := by unfold Block.reset; rfl
@[simp] theorem Block.reset_c (w : Width) : (Block.reset w).c = 0 := by unfold Block.reset; rfl
@[simp] theorem Block.reset_ridx (w : Width) : (Block.reset w).ridx = 256 := by unfold Block.reset; rfl

/-! What SEED, the counter step, a refill and the cursor's advance leave in each field. -/

@[simp] theorem Block.seed_m (s : Block w) (mem : List (Word w)) (q : Option (Octet w)) :
    (s.seed mem q).m = seedMemory w mem q := rfl
@[simp] theorem Block.seed_r (s : Block w) (mem : List (Word w)) (q : Option (Octet w)) : (s.seed mem q).r = s.r := rfl
@[simp] theorem Block.seed_a (s : Block w) (mem : List (Word w)) (q : Option (Octet w)) : (s.seed mem q).a = 0 := rfl
@[simp] theorem Block.seed_b (s : Block w) (mem : List (Word w)) (q : Option (Octet w)) : (s.seed mem q).b = 0 := rfl
@[simp] theorem Block.seed_c (s : Block w) (mem : List (Word w)) (q : Option (Octet w)) : (s.seed mem q).c = 0 := rfl
@[simp] theorem Block.seed_ridx (s : Block w) (mem : List (Word w)) (q : Option (Octet w)) :
    (s.seed mem q).ridx = 256 := rfl
@[simp] theorem Block.perturb_m (s : Block w) : s.perturb.m = s.m := rfl
@[simp] theorem Block.perturb_r (s : Block w) : s.perturb.r = s.r := rfl
@[simp] theorem Block.perturb_a (s : Block w) : s.perturb.a = s.a := rfl
@[simp] theorem Block.perturb_b (s : Block w) : s.perturb.b = s.b + (s.c + 1) := rfl
@[simp] theorem Block.perturb_c (s : Block w) : s.perturb.c = s.c + 1 := rfl
@[simp] theorem Block.refill_m (s : Block w) : s.refill.m = (Block.refillSteps 256 s.perturb).m := by
  unfold Block.refill; rfl
@[simp] theorem Block.refill_r (s : Block w) : s.refill.r = (Block.refillSteps 256 s.perturb).r := by
  unfold Block.refill; rfl
@[simp] theorem Block.refill_a (s : Block w) : s.refill.a = (Block.refillSteps 256 s.perturb).a := by
  unfold Block.refill; rfl
@[simp] theorem Block.refill_b (s : Block w) : s.refill.b = (Block.refillSteps 256 s.perturb).b := by
  unfold Block.refill; rfl
@[simp] theorem Block.refill_ridx (s : Block w) : s.refill.ridx = 0 := by
  unfold Block.refill; rfl
@[simp] theorem Block.advance_m (s : Block w) : s.advance.m = s.m := rfl
@[simp] theorem Block.advance_r (s : Block w) : s.advance.r = s.r := rfl
@[simp] theorem Block.advance_a (s : Block w) : s.advance.a = s.a := rfl
@[simp] theorem Block.advance_b (s : Block w) : s.advance.b = s.b := rfl
@[simp] theorem Block.advance_c (s : Block w) : s.advance.c = s.c := rfl
@[simp] theorem Block.advance_ridx (s : Block w) : s.advance.ridx = s.ridx + 1 := rfl

end Sys2Proof.Machine
end

