-- ==== Sys2Proof/Laws/Refiller.lean ====
section
/-! SUPPORT. What one refill step and the first `n` steps of a refill leave. -/

namespace Sys2Proof.Machine

variable {w : Width}

/-! ## One step (43_refiller.md R165) -/

/-- The `a` a step computes. -/
def Block.stepA (s : Block w) (i : Fin 256) : Word w := aUpdate w s.a (selector i) + s.m.read (partner i)

/-- The `y` a step computes. -/
def Block.stepY (s : Block w) (i : Fin 256) : Word w := indirect s.m (s.m.read i) + s.stepA i + s.b

/-- The `b` a step computes. -/
def Block.stepB (s : Block w) (i : Fin 256) : Word w :=
  indirect (s.m.write i (s.stepY i)) (s.stepY i >>> 8) + s.m.read i

@[simp] theorem Block.refillStep_m (s : Block w) (i : Fin 256) : (s.refillStep i).m = s.m.write i (s.stepY i) := rfl
@[simp] theorem Block.refillStep_r (s : Block w) (i : Fin 256) : (s.refillStep i).r = s.r.write i (s.stepB i) := rfl
@[simp] theorem Block.refillStep_a (s : Block w) (i : Fin 256) : (s.refillStep i).a = s.stepA i := rfl
@[simp] theorem Block.refillStep_b (s : Block w) (i : Fin 256) : (s.refillStep i).b = s.stepB i := rfl
@[simp] theorem Block.refillStep_c (s : Block w) (i : Fin 256) : (s.refillStep i).c = s.c := rfl
@[simp] theorem Block.refillStep_ridx (s : Block w) (i : Fin 256) : (s.refillStep i).ridx = s.ridx := rfl

theorem partner_val (i : Fin 256) : (partner i).val = if i.val < 128 then i.val + 128 else i.val - 128 := by
  unfold partner; split <;> rfl

/-! ## The first `n` steps -/

@[simp] theorem Block.refillSteps_zero (s : Block w) : Block.refillSteps 0 s = s := by
  with_unfolding_all rfl

theorem Block.refillSteps_succ (n : Nat) (s : Block w) :
    Block.refillSteps (n + 1) s = (Block.refillSteps n s).refillStep (Fin.ofNat 256 n) := by
  with_unfolding_all rfl

@[simp] theorem Block.refillSteps_c (n : Nat) (s : Block w) : (Block.refillSteps n s).c = s.c := by
  induction n with
  | zero => simp
  | succ n ih => simp [Block.refillSteps_succ, ih]

@[simp] theorem Block.refill_c (s : Block w) : s.refill.c = s.c + 1 := by
  have h : s.refill.c = (Block.refillSteps 256 s.perturb).c := by unfold Block.refill; rfl
  rw [h, Block.refillSteps_c, Block.perturb_c]

/-- Step `n` does not reach another position of the working memory. -/
theorem Block.refillSteps_succ_m_other (n : Nat) (s : Block w) {i : Fin 256} (h : i.val ≠ n) (hn : n < 256) :
    (Block.refillSteps (n + 1) s).m.read i = (Block.refillSteps n s).m.read i := by
  rw [Block.refillSteps_succ, Block.refillStep_m]
  exact Bank.read_write_other _ _ fun e => h (by rw [← e]; simp [Nat.mod_eq_of_lt hn])

/-- Step `n` does not reach another position of the output block. -/
theorem Block.refillSteps_succ_r_other (n : Nat) (s : Block w) {i : Fin 256} (h : i.val ≠ n) (hn : n < 256) :
    (Block.refillSteps (n + 1) s).r.read i = (Block.refillSteps n s).r.read i := by
  rw [Block.refillSteps_succ, Block.refillStep_r]
  exact Bank.read_write_other _ _ fun e => h (by rw [← e]; simp [Nat.mod_eq_of_lt hn])

/-- A position no step has visited holds what it held before the refill (R168). -/
theorem Block.refillSteps_m_unvisited (s : Block w) {i : Fin 256} {n : Nat} (h : n ≤ i.val) :
    (Block.refillSteps n s).m.read i = s.m.read i := by
  induction n with
  | zero => simp
  | succ n ih =>
    rw [Block.refillSteps_succ_m_other n s (by omega) (by omega)]
    exact ih (by omega)

/-- A position step `i` has written keeps that word to the end of the refill. -/
theorem Block.refillSteps_m_visited (s : Block w) {i : Fin 256} {n : Nat} (h : i.val < n) (hn : n ≤ 256) :
    (Block.refillSteps n s).m.read i = (Block.refillSteps (i.val + 1) s).m.read i := by
  induction n with
  | zero => omega
  | succ n ih =>
    by_cases e : i.val = n
    · rw [e]
    · rw [Block.refillSteps_succ_m_other n s e (by omega)]
      exact ih (by omega) (by omega)

/-- The word step `i` wrote into the output block stays to the end of the refill. -/
theorem Block.refillSteps_r_visited (s : Block w) {i : Fin 256} {n : Nat} (h : i.val < n) (hn : n ≤ 256) :
    (Block.refillSteps n s).r.read i = (Block.refillSteps (i.val + 1) s).r.read i := by
  induction n with
  | zero => omega
  | succ n ih =>
    by_cases e : i.val = n
    · rw [e]
    · rw [Block.refillSteps_succ_r_other n s e (by omega)]
      exact ih (by omega) (by omega)

/-- The memory before step `n` is the final memory below `n` and the old one from `n` on. -/
theorem Block.refillSteps_m_eq_mixedRead (s : Block w) {n : Nat} (hn : n ≤ 256) (k : Fin 256) :
    (Block.refillSteps n s).m.read k = mixedRead s.m (Block.refillSteps 256 s).m n k := by
  unfold mixedRead
  split
  · next h => rw [Block.refillSteps_m_visited s h hn, Block.refillSteps_m_visited s k.isLt (Nat.le_refl _)]
  · next h => exact Block.refillSteps_m_unvisited s (by omega)

/-- Step `n` at its own position. -/
theorem Block.refillSteps_succ_eq (s : Block w) (i : Fin 256) :
    Block.refillSteps (i.val + 1) s = (Block.refillSteps i.val s).refillStep i := by
  have e : Fin.ofNat 256 i.val = i := Fin.ext (Nat.mod_eq_of_lt i.isLt)
  rw [Block.refillSteps_succ, e]

/-! ## The whole refill -/

theorem mixedRead_partner (old new : Bank w) (i : Fin 256) :
    mixedRead old new i.val (partner i) = partnerWord old new i := by
  unfold partnerWord mixedRead
  rw [partner_val]
  by_cases h : i.val < 128
  · rw [if_pos h, if_neg (by omega), if_pos h]
    exact congrArg _ (Fin.ext (by rw [partner_val, if_pos h]; simp only [Fin.val_ofNat]; omega))
  · rw [if_neg h, if_pos (by omega), if_neg h]
    exact congrArg _ (Fin.ext (by rw [partner_val, if_neg h]; simp only [Fin.val_ofNat]; omega))

/-- What a refill leaves meets the spec's equations. -/
theorem Block.refill_refillsTo (s : Block w) : s.RefillsTo s.refill := by
  refine ⟨⟨fun n => (Block.refillSteps n s.perturb).a, fun n => (Block.refillSteps n s.perturb).b, by simp, by simp,
    by simp, by simp, fun i => ?_⟩, by simp, by simp⟩
  have hm := Block.refillSteps_m_eq_mixedRead s.perturb (n := i.val) (by omega)
  have hm' := Block.refillSteps_m_eq_mixedRead s.perturb (n := i.val + 1) (by omega)
  have hst := Block.refillSteps_succ_eq s.perturb i
  have hx : (Block.refillSteps i.val s.perturb).m.read i = s.m.read i :=
    Block.refillSteps_m_unvisited _ (Nat.le_refl _)
  have hy : s.refill.m.read i = (Block.refillSteps i.val s.perturb).stepY i := by
    rw [Block.refill_m, Block.refillSteps_m_visited _ i.isLt (Nat.le_refl _), hst, Block.refillStep_m,
      Bank.read_write_same]
  refine ⟨?_, ?_, ?_, ?_⟩
  · simp only [hst, Block.refillStep_a]
    unfold Block.stepA
    rw [hm, mixedRead_partner, Block.refill_m]; rfl
  · rw [hy]
    simp only [hst, Block.refillStep_a]
    unfold Block.stepY indirect
    rw [hx, hm, Block.refill_m]; rfl
  · simp only [hst, Block.refillStep_b]
    have h := hm' (indirectIndex (s.refill.m.read i >>> 8))
    rw [hst, Block.refillStep_m] at h
    unfold Block.stepB indirect
    rw [hx, ← hy, ← Block.refill_m] at *
    rw [h]; rfl
  · rw [Block.refill_r, Block.refillSteps_r_visited _ i.isLt (Nat.le_refl _), hst, Block.refillStep_r,
      Bank.read_write_same]
    simp only [hst, Block.refillStep_b]

/-- The first word of a block is the `b` of step 0. -/
theorem Block.refill_r_zero (s : Block w) : s.refill.r.read 0 = s.perturb.stepB 0 := by
  have h := Block.refillSteps_succ_eq s.perturb 0
  rw [Block.refill_r, Block.refillSteps_r_visited s.perturb (i := 0) (by decide) (by decide), h, Block.refillStep_r,
    Bank.read_write_same]
  simp

/-! ## The Extractor (44_extractor.md) -/

theorem Block.refillIfExhausted_of_lt {s : Block w} (h : s.ridx.val < 256) : s.refillIfExhausted = s := by
  simp [Block.refillIfExhausted, Block.exhausted, Nat.ne_of_lt h]

theorem Block.refillIfExhausted_of_eq {s : Block w} (h : s.ridx.val = 256) : s.refillIfExhausted = s.refill := by
  simp [Block.refillIfExhausted, Block.exhausted, h]

/-- NEXTWORD always serves from a block with a word left. -/
theorem Block.refillIfExhausted_ridx_lt (s : Block w) : s.refillIfExhausted.ridx.val < 256 := by
  by_cases h : s.ridx.val < 256
  · rw [Block.refillIfExhausted_of_lt h]; exact h
  · rw [Block.refillIfExhausted_of_eq (by omega)]; simp

theorem Block.advance_ridx_val {s : Block w} (h : s.ridx.val < 256) : s.advance.ridx.val = s.ridx.val + 1 := by
  simp only [Block.advance_ridx, Fin.val_add, Fin.val_one]
  omega

end Sys2Proof.Machine
end

