-- ==== Sys2Proof/Laws/Seeding.lean ====
section
/-! SUPPORT. What the groups of a seeding pass leave (41_seeder.md R123 to R125). -/

namespace Sys2Proof.Machine

variable {w : Width}

@[simp] theorem seedGroup_q (g : Fin 32) (x : Seeding w) : (seedGroup g x).q = mix w (x.q.add (x.m.group g)) := rfl

@[simp] theorem seedGroups_zero (x : Seeding w) : seedGroups 0 x = x := by
  with_unfolding_all rfl

theorem seedGroups_succ (n : Nat) (x : Seeding w) :
    seedGroups (n + 1) x = seedGroup (Fin.ofNat 32 n) (seedGroups n x) := by
  with_unfolding_all rfl

/-- A group's words are the mixed registers. -/
theorem seedGroup_group_same (g : Fin 32) (x : Seeding w) : (seedGroup g x).m.group g = (seedGroup g x).q := by
  simp [seedGroup, Bank.group_setGroup_same]

/-- The other groups are as before. -/
theorem seedGroup_group_other {g g' : Fin 32} (x : Seeding w) (h : g ≠ g') :
    (seedGroup g x).m.group g' = x.m.group g' := by
  simp [seedGroup, Bank.group_setGroup_other _ _ h]

/-- A group no step of the pass has reached is as before the pass. -/
theorem seedGroups_group_unvisited (x : Seeding w) {n : Nat} {g : Fin 32} (h : n ≤ g.val) :
    (seedGroups n x).m.group g = x.m.group g := by
  induction n with
  | zero => simp
  | succ n ih =>
    have ne : Fin.ofNat 32 n ≠ g := fun e => by
      have := congrArg Fin.val e
      simp only [Fin.val_ofNat] at this
      omega
    rw [seedGroups_succ, seedGroup_group_other _ ne]
    exact ih (by omega)

/-- A group the pass has written holds the registers as they were after it. -/
theorem seedGroups_group_visited (x : Seeding w) {n : Nat} {g : Fin 32} (h : g.val < n) (hn : n ≤ 32) :
    (seedGroups n x).m.group g = (seedGroups (g.val + 1) x).q := by
  induction n with
  | zero => omega
  | succ n ih =>
    by_cases e : g.val = n
    · have eg : Fin.ofNat 32 n = g := Fin.ext (by simp only [Fin.val_ofNat]; omega)
      rw [e, seedGroups_succ, eg, seedGroup_group_same]
    · have ne : Fin.ofNat 32 n ≠ g := fun e' => e (by
        have := congrArg Fin.val e'
        simp only [Fin.val_ofNat] at this
        omega)
      rw [seedGroups_succ, seedGroup_group_other _ ne]
      exact ih (by omega) (by omega)

/-- The registers after one more group of a pass. -/
theorem seedGroups_succ_q (x : Seeding w) {n : Nat} (hn : n < 32) :
    (seedGroups (n + 1) x).q = mix w ((seedGroups n x).q.add (x.m.group ⟨n, hn⟩)) := by
  have e : Fin.ofNat 32 n = ⟨n, hn⟩ := Fin.ext (Nat.mod_eq_of_lt hn)
  rw [seedGroups_succ, e, seedGroup_q, seedGroups_group_unvisited x (g := ⟨n, hn⟩) (Nat.le_refl n)]

/-- The seeded memory by its groups: the registers the second pass left in each. -/
theorem seedMemory_group (mem : List (Word w)) (regs : Option (Octet w)) (g : Fin 32) :
    (seedMemory w mem regs).group g =
      (seedGroups (g.val + 1) (seedPass { q := regs.getD (defaultOctet w), m := Bank.ofPrefix mem })).q := by
  unfold seedMemory
  exact seedGroups_group_visited _ g.isLt (Nat.le_refl _)

theorem Octet.get_replicate (x : Word w) (k : Fin 8) : (Octet.replicate x).get k = x := by
  fin_cases k <;> rfl

/-- Adding zero words changes no register. -/
theorem Octet.add_replicate_zero (q : Octet w) : q.add (Octet.replicate 0) = q := by
  simp [Octet.add, Octet.replicate]

/-- Both Mixers map the all-zero octet to itself (42_mixer.md R140, R141). -/
theorem mix_zero (w : Width) : mix w (Octet.replicate 0) = Octet.replicate 0 := by
  cases w <;> decide

/-- What a seeding leaves meets the spec's equations. -/
theorem seedMemory_recurrence (w : Width) (mem : List (Word w)) (regs : Option (Octet w)) :
    SeedRecurrence mem (regs.getD (defaultOctet w)) (seedMemory w mem regs) := by
  let x0 : Seeding w := { q := regs.getD (defaultOctet w), m := Bank.ofPrefix mem }
  let x1 := seedPass x0
  have e1 : x1 = seedGroups 32 x0 := rfl
  have hg : ∀ g : Fin 32, x0.m.group g = seedGroupWords mem g.val := fun g => Octet.ext_get fun k => by
    simp [x0, Bank.group, seedGroupWords, groupIndex]
  refine ⟨fun n => if n ≤ 32 then (seedGroups n x0).q else (seedGroups (n - 32) x1).q, ?_, ?_, ?_, ?_⟩
  · simp [x0]
  · intro g h
    simp only []
    rw [if_pos (by omega), if_pos (by omega), seedGroups_succ_q x0 h, hg]
  · intro g h
    have e2 : (if 32 + g ≤ 32 then (seedGroups (32 + g) x0).q else (seedGroups (32 + g - 32) x1).q) =
        (seedGroups g x1).q := by
      by_cases g0 : g = 0
      · subst g0; rw [if_pos (by omega), seedGroups_zero, e1]
      · rw [if_neg (by omega)]; congr 2; omega
    simp only [e2]
    rw [if_neg (by omega), if_pos (by omega), show 32 + g + 1 - 32 = g + 1 by omega, seedGroups_succ_q x1 h, e1,
      seedGroups_group_visited x0 h (Nat.le_refl _)]
  · intro g k
    have h := congrArg (fun o => o.get k) (seedMemory_group mem regs g)
    simp only [Bank.group, Octet.get_ofFn] at h
    rw [h]
    simp only []
    rw [if_neg (by omega), show 32 + g.val + 1 - 32 = g.val + 1 by omega]

end Sys2Proof.Machine
end

