-- ==== Sys2Proof/Laws/Eval.lean ====
section
/-! SUPPORT. A seeding and a refill in a form Lean's kernel evaluates quickly, each proved equal to the model's: every
word is evaluated when it is computed, and the working memory is a tree. The known-answer tests run these. -/

namespace Sys2Proof.Laws.Eval

open Sys2Proof Sys2Proof.Machine

variable {w : Width} {α : Type}

/-! ## Words evaluated when they are computed -/

/-- `f n`, the number evaluated first: the recursor looks at it. -/
def forced (n : Nat) (f : Nat → α) : α := Nat.rec (f 0) (fun k _ => f (k + 1)) n

theorem forced_eq (n : Nat) (f : Nat → α) : forced n f = f n := by cases n <;> rfl

/-- `f x`, the word evaluated first. -/
def withWord (x : Word w) (f : Word w → α) : α := forced x.toNat fun n => f (BitVec.ofNat _ n)

theorem withWord_eq (x : Word w) (f : Word w → α) : withWord x f = f x := by
  rw [withWord, forced_eq, BitVec.ofNat_toNat, BitVec.setWidth_eq]

/-- `f q`, the eight words evaluated first. -/
def withOctet (q : Octet w) (f : Octet w → α) : α :=
  withWord q.a fun a => withWord q.b fun b => withWord q.c fun c => withWord q.d fun d =>
    withWord q.e fun e => withWord q.f fun f' => withWord q.g fun g => withWord q.h fun h => f ⟨a, b, c, d, e, f', g, h⟩

theorem withOctet_eq (q : Octet w) (f : Octet w → α) : withOctet q f = f q := by
  simp only [withOctet, withWord_eq]

/-! ## Seeding -/

/-- The registers after each group, the groups' words given. -/
def absorb : List (Octet w) → Octet w → List (Octet w)
  | [], _ => []
  | p :: ps, q => withOctet (mix w (q.add p)) fun q' => q' :: absorb ps q'

/-- The 32 groups of the memory a seeding leaves. -/
def seededGroups (mem : List (Word w)) (start : Octet w) : List (Octet w) :=
  let first := absorb ((List.range' 0 32).map (seedGroupWords mem)) start
  absorb first (first.getLastD start)

theorem absorb_eq (p q : Nat → Octet w) (s n : Nat) (h : ∀ i, s ≤ i → i < s + n → q (i + 1) = mix w ((q i).add (p i))) :
    absorb ((List.range' s n).map p) (q s) = (List.range' s n).map fun i => q (i + 1) := by
  induction n generalizing s with
  | zero => rfl
  | succ n ih =>
    rw [List.range'_succ, List.map_cons, List.map_cons, absorb, withOctet_eq, ← h s (Nat.le_refl _) (by omega),
      ih (s + 1) fun i h1 h2 => h i (by omega) (by omega)]

/-- A word of the seeded memory stands in its group. -/
theorem seedMemory_read (mem : List (Word w)) (regs : Option (Octet w)) (g : Fin 32) (k : Fin 8) (z : Octet w) :
    (seedMemory w mem regs).read (groupIndex g k) =
      ((seededGroups mem (regs.getD (defaultOctet w))).getD g.val z).get k := by
  obtain ⟨q, q0, qa, qb, qm⟩ := seedMemory_recurrence w mem regs
  have h1 := absorb_eq (seedGroupWords mem) q 0 32 fun i _ h => qa i (by omega)
  have h2 := absorb_eq (fun i => q (i + 1)) (fun i => q (32 + i)) 0 32 fun i _ h => qb i (by omega)
  have hlast : ((List.range' 0 32).map fun i => q (i + 1)).getLastD (regs.getD (defaultOctet w)) = q 32 := rfl
  have hs : seededGroups mem (regs.getD (defaultOctet w)) = (List.range' 0 32).map fun i => q (32 + (i + 1)) := by
    unfold seededGroups
    simp only []
    rw [← q0, h1, q0, hlast]
    exact h2
  rw [qm, hs, List.getD_eq_getElem?_getD, List.getElem?_map, List.getElem?_range' (by exact g.isLt)]
  simp [Nat.add_assoc]

/-- Word `i` of the memory a seeding leaves. -/
def seededWord (mem : List (Word w)) (start : Octet w) (i : Nat) : Word w :=
  ((seededGroups mem start).getD (i / 8) start).get (Fin.ofNat 8 i)

theorem seedMemory_read_eq (mem : List (Word w)) (regs : Option (Octet w)) (i : Fin 256) :
    (seedMemory w mem regs).read i = seededWord mem (regs.getD (defaultOctet w)) i.val := by
  rw [seededWord, ← seedMemory_read mem regs ⟨i.val / 8, by omega⟩ (Fin.ofNat 8 i.val)]
  exact congrArg _ (Fin.ext (by simp only [groupIndex, Fin.val_ofNat]; omega))

/-! ## The working memory as a tree -/

/-- A tree with words at its leaves; the lowest bit of an index chooses the branch. -/
inductive Tree (α : Type) where
  | leaf (x : α)
  | node (l r : Tree α)

/-- The tree of depth `d` that holds `f i` at index `i`. -/
def Tree.build : Nat → (Nat → α) → Tree α
  | 0, f => .leaf (f 0)
  | d + 1, f => .node (Tree.build d fun i => f (2 * i)) (Tree.build d fun i => f (2 * i + 1))

def Tree.get : Tree α → Nat → α
  | .leaf x, _ => x
  | .node l r, i => cond (Nat.beq (i % 2) 0) (l.get (i / 2)) (r.get (i / 2))

def Tree.set : Tree α → Nat → α → Tree α
  | .leaf _, _, v => .leaf v
  | .node l r, i, v => cond (Nat.beq (i % 2) 0) (.node (l.set (i / 2) v) r) (.node l (r.set (i / 2) v))

theorem Tree.get_build (d : Nat) (f : Nat → α) (i : Nat) (h : i < 2 ^ d) : (Tree.build d f).get i = f i := by
  induction d generalizing f i with
  | zero => rw [show i = 0 by omega]; rfl
  | succ d ih =>
    have hd : i / 2 < 2 ^ d := by omega
    rw [Tree.build, Tree.get, ih _ _ hd, ih _ _ hd]
    cases hb : Nat.beq (i % 2) 0 with
    | true => exact congrArg f (by have := Nat.eq_of_beq_eq_true hb; omega)
    | false => exact congrArg f (by have := Nat.ne_of_beq_eq_false hb; omega)

theorem Tree.set_build (d : Nat) (f : Nat → α) (i : Nat) (v : α) (h : i < 2 ^ d) :
    (Tree.build d f).set i v = Tree.build d fun j => if j = i then v else f j := by
  induction d generalizing f i with
  | zero => rw [show i = 0 by omega]; rfl
  | succ d ih =>
    have hd : i / 2 < 2 ^ d := by omega
    rw [Tree.build, Tree.set, ih _ _ hd, ih _ _ hd, Tree.build]
    cases hb : Nat.beq (i % 2) 0 with
    | true =>
      have e := Nat.eq_of_beq_eq_true hb
      simp only [cond_true]
      congr 2 <;> funext j
      · simp only [show 2 * j = i ↔ j = i / 2 by omega]
      · rw [if_neg (by omega)]
    | false =>
      have e := Nat.ne_of_beq_eq_false hb
      simp only [cond_false]
      congr 2 <;> funext j
      · rw [if_neg (by omega)]
      · simp only [show 2 * j + 1 = i ↔ j = i / 2 by omega]

/-- The working memory as a tree. -/
def toTree (m : Bank w) : Tree (Word w) := Tree.build 8 fun i => m.read (Fin.ofNat 256 i)

theorem get_toTree (m : Bank w) (i : Fin 256) : (toTree m).get i.val = m.read i := by
  rw [toTree, Tree.get_build _ _ _ i.isLt, show Fin.ofNat 256 i.val = i from Fin.ext (Nat.mod_eq_of_lt i.isLt)]

theorem toTree_congr {m : Bank w} {f : Nat → Word w} (h : ∀ i : Fin 256, m.read i = f i.val) :
    toTree m = Tree.build 8 fun i => f (i % 256) := by
  rw [toTree]; congr 1; funext i; exact h _

theorem build_mod (f : Nat → α) (d : Nat) : Tree.build d (fun i => f (i % 2 ^ d)) = Tree.build d f := by
  induction d generalizing f with
  | zero => simp [Tree.build]
  | succ d ih =>
    rw [Tree.build, Tree.build, ← ih fun i => f (2 * i), ← ih fun i => f (2 * i + 1)]
    congr 2 <;> funext i <;> congr 1
    · rw [Nat.pow_succ, Nat.mul_comm (2 ^ d) 2, Nat.mul_mod_mul_left]
    · have := Nat.div_add_mod i (2 ^ d)
      have h2 := Nat.mod_lt i (Nat.two_pow_pos d)
      rw [Nat.pow_succ, Nat.mul_comm (2 ^ d) 2]
      generalize i % 2 ^ d = r at *
      generalize i / 2 ^ d = c at *
      subst this
      rw [show 2 * (2 ^ d * c + r) + 1 = (2 * r + 1) + (2 * 2 ^ d) * c by rw [Nat.mul_add, Nat.mul_assoc]; omega,
        Nat.add_mul_mod_self_left, Nat.mod_eq_of_lt (by omega)]

theorem set_toTree (m : Bank w) (i : Fin 256) (v : Word w) : (toTree m).set i.val v = toTree (m.write i v) := by
  rw [toTree, Tree.set_build _ _ _ _ i.isLt, ← build_mod, toTree]
  congr 1
  funext j
  rw [Bank.read_write]
  by_cases h : j % 2 ^ 8 = i.val
  · rw [if_pos h, if_pos (Fin.ext h.symm)]
  · rw [if_neg h, if_neg fun e => h (congrArg Fin.val e).symm]
    exact congrArg _ (Fin.ext (by simp))

/-! ## A refill -/

/-- The `k` steps from position `i`, on the tree; what is left of `a` and `b` at the end. -/
def steps : Nat → Nat → Tree (Word w) → Word w → Word w → Word w × Word w
  | 0, _, _, a, b => (a, b)
  | k + 1, i, t, a, b =>
    withWord (t.get i) fun x =>
    withWord (aUpdate w a (selector (Fin.ofNat 256 i)) + t.get (partner (Fin.ofNat 256 i)).val) fun a' =>
    withWord (t.get (indirectIndex x).val + a' + b) fun y =>
    withWord ((t.set i y).get (indirectIndex (y >>> 8)).val + x) fun b' => steps k (i + 1) (t.set i y) a' b'

theorem steps_eq (s : Block w) (k i : Nat) (h : i + k ≤ 256) :
    steps k i (toTree (Block.refillSteps i s).m) (Block.refillSteps i s).a (Block.refillSteps i s).b =
      ((Block.refillSteps (i + k) s).a, (Block.refillSteps (i + k) s).b) := by
  induction k generalizing i with
  | zero => rfl
  | succ k ih =>
    have hi : i < 256 := by omega
    have e : (Fin.ofNat 256 i).val = i := Nat.mod_eq_of_lt hi
    have hx : (toTree (Block.refillSteps i s).m).get i = (Block.refillSteps i s).m.read (Fin.ofNat 256 i) := by
      rw [← get_toTree, e]
    have hset (y : Word w) : (toTree (Block.refillSteps i s).m).set i y =
        toTree ((Block.refillSteps i s).m.write (Fin.ofNat 256 i) y) := by
      rw [← set_toTree, e]
    rw [steps]
    simp only [withWord_eq, hx, hset, get_toTree]
    rw [show i + (k + 1) = i + 1 + k by omega, ← ih (i + 1) (by omega), Block.refillSteps_succ]
    rfl

/-- A refill's registers, from the words of the memory before it. -/
theorem refill_registers {s : Block w} {f : Nat → Word w} (h : ∀ i : Fin 256, s.m.read i = f i.val) :
    (s.refill.a, s.refill.b) = steps 256 0 (Tree.build 8 f) s.a (s.b + (s.c + 1)) := by
  have ht : toTree s.m = Tree.build 8 f := by rw [toTree_congr h]; exact build_mod f 8
  rw [Block.refill_a, Block.refill_b, ← ht]
  have e := steps_eq s.perturb 256 0 (Nat.le_refl _)
  simp only [Block.refillSteps_zero, Block.perturb_m, Block.perturb_a, Block.perturb_b, Nat.zero_add] at e
  exact e.symm

/-- The first word of a refill's block, from the words of the memory before it. -/
theorem refill_first_word {s : Block w} {f : Nat → Word w} (h : ∀ i : Fin 256, s.m.read i = f i.val) :
    s.refill.r.read 0 = (steps 1 0 (Tree.build 8 f) s.a (s.b + (s.c + 1))).2 := by
  have ht : toTree s.m = Tree.build 8 f := by rw [toTree_congr h]; exact build_mod f 8
  have e := steps_eq s.perturb 1 0 (by decide)
  simp only [Block.refillSteps_zero, Block.perturb_m, Block.perturb_a, Block.perturb_b, ht] at e
  rw [Block.refill_r_zero, e, Block.refillSteps_succ, Block.refillSteps_zero]
  rfl

end Sys2Proof.Laws.Eval
end

