-- ==== Sys2Proof/Laws/PerInstr.lean ====
section
/-! SUPPORT. Statements made for every command, one lemma per constructor. -/

namespace Sys2Proof.Laws

/-- The word of a well-formed command carries the command's `OPC` in its low four bits (30_encoding.md R72, R73). -/
def OpcodeInPlace.Statement (i : Instr) : Prop := i.wellFormed = true → opcodeField (encode i) = i.opcode

theorem OpcodeInPlace.seed (mlen rlen : Nat) : OpcodeInPlace.Statement (.seed mlen rlen) := by
  intro h
  simp only [Instr.wellFormed, Bool.and_eq_true, decide_eq_true_eq] at h
  rw [← BitVec.toNat_inj, opcodeField_toNat, encode_seed_toNat h.1 h.2]
  simp only [Instr.opcode]
  have : (1 : BitVec 4).toNat = 1 := rfl
  omega

theorem OpcodeInPlace.refill : OpcodeInPlace.Statement .refill := fun _ => by decide

theorem OpcodeInPlace.nextword : OpcodeInPlace.Statement .nextword := fun _ => by decide

/-- The word of a well-formed command sets no bit that is reserved under every `OPC` (R72). -/
def NoReservedBit.Statement (i : Instr) : Prop := i.wellFormed = true → upperReservedField (encode i) = 0

theorem NoReservedBit.seed (mlen rlen : Nat) : NoReservedBit.Statement (.seed mlen rlen) := by
  intro h
  simp only [Instr.wellFormed, Bool.and_eq_true, decide_eq_true_eq] at h
  rw [upperReservedField_eq_zero, encode_seed_toNat h.1 h.2]
  have h1 := h.1
  have h2 := h.2
  simp only [memoryCountLegal, registerCountEncodable] at h1 h2
  omega

theorem NoReservedBit.refill : NoReservedBit.Statement .refill := fun _ => by decide

theorem NoReservedBit.nextword : NoReservedBit.Statement .nextword := fun _ => by decide

end Sys2Proof.Laws
end

