-- ==== Sys2Proof/Laws/Step.lean ====
section
/-! SUPPORT. Everything a command and a step can do, said once. -/

namespace Sys2Proof.Machine

/-! ## Commands -/

theorem exec_seed_eq (mlen rlen : Nat) (s : State) :
    exec (.seed mlen rlen) s = .next (s.finish (seedStatus mlen rlen s.payload.length)
      (s.block.seed (seedMemoryWords mlen s.payload) (suppliedOctet mlen rlen s.payload)) []) := rfl

theorem exec_refill_eq (s : State) :
    exec .refill s = .next (s.finish (refillStatus s.payload.length) s.block.refill s.block.refill.output) := rfl

theorem exec_nextword_eq (s : State) :
    exec .nextword s = .next (s.finish (nextwordStatus s.payload.length) s.block.serve [s.block.servedWord]) := rfl

/-- Under OK the payload is the expected one, and the command's effects take place. -/
theorem exec_refill_of_payload {s : State} (h : s.payload = []) :
    exec .refill s = .next (s.answered s.block.refill { status := .ok, data := s.block.refill.r.toList }) := by
  rw [exec_refill_eq, h]; rfl

theorem exec_nextword_of_payload {s : State} (h : s.payload = []) :
    exec .nextword s = .next (s.answered s.block.serve { status := .ok, data := [s.block.servedWord] }) := by
  rw [exec_nextword_eq, h]; rfl

theorem seedStatus_ok {mlen rlen len : Nat} (hl : len = mlen + rlen) (hr : rlen = 0 ∨ rlen = 8) :
    seedStatus mlen rlen len = .ok := by
  unfold seedStatus
  rw [if_neg (by simp [expectedPayloadLength, hl]), if_neg (by omega)]

theorem seedStatus_invalid {mlen rlen len : Nat} (hl : len = mlen + rlen) (h0 : rlen ≠ 0) (h8 : rlen ≠ 8) :
    seedStatus mlen rlen len = .invalidSeedConfiguration := by
  unfold seedStatus
  rw [if_neg (by simp [expectedPayloadLength, hl]), if_pos ⟨h0, h8⟩]

theorem seedStatus_mismatch {mlen rlen len : Nat} (hl : len ≠ mlen + rlen) :
    seedStatus mlen rlen len = .payloadLengthMismatch := by
  unfold seedStatus
  rw [if_pos (by simpa [expectedPayloadLength] using hl)]

/-- Every command answers a next state, with one response, and changes the block only under OK. -/
theorem exec_eq_answered (i : Instr) (s : State) :
    ∃ (b : Block s.width) (r : Response s.width),
      exec i s = .next (s.answered b r) ∧ (r.status ≠ .ok → b = s.block ∧ r.data = []) := by
  have key (st : Status) (b : Block s.width) (d : List (Word s.width)) :
      ∃ (b' : Block s.width) (r : Response s.width),
        Host.Outcome.next (φ := Fault) (ρ := Refusal) (s.finish st b d) = .next (s.answered b' r) ∧
          (r.status ≠ .ok → b' = s.block ∧ r.data = []) :=
    ⟨_, _, congrArg _ (State.finish_eq_answered s st b d), fun h => ⟨if_neg h, if_neg h⟩⟩
  cases i with
  | seed mlen rlen => exact key _ _ _
  | refill => exact key _ _ _
  | nextword => exact key _ _ _

/-! ## Steps -/

theorem step_idle {s : State} (h : s.nextInput = none) : step s = .next s := by
  simp only [step, h, State.idle_eq]

theorem step_command {s : State} {t : Transaction s.width} (h : s.takes t) : step s = runCommand t.cmd s := by
  simp only [step, h]

theorem step_reset {s : State} (h : s.nextInput = some .reset) : step s = .next s.takeReset := by
  simp only [step, h]

theorem step_resetDuring {s : State} {t : Transaction s.width} (h : s.nextInput = some (.resetDuring t)) :
    step s = .next s.takeReset := by
  simp only [step, h, State.abandonCommand_eq]

theorem step_powerLoss {s : State} (h : s.nextInput = some .powerLoss) : step s = .next s.losePower := by
  simp only [step, h]

/-- A command that decodes runs. -/
theorem step_decoded {s : State} {t : Transaction s.width} {i : Instr} (h : s.takes t) (hd : decode t.cmd = .ok i) :
    step s = exec i s := by
  rw [step_command h]; simp only [runCommand, hd]

/-- A command that does not decode is answered with ILLEGAL_COMMAND. -/
theorem step_illegal {s : State} {t : Transaction s.width} {e : Illegal} (h : s.takes t) (hd : decode t.cmd = .error e) :
    step s = .next (s.raise .illegalCommand) := by
  rw [step_command h]; simp only [runCommand, hd]

/-- Everything a step can do. -/
theorem step_cases (s : State) :
    (s.nextInput = none ∧ step s = .next s) ∨
    (∃ t i, s.takes t ∧ decode t.cmd = .ok i ∧ step s = exec i s) ∨
    (∃ t e, s.takes t ∧ decode t.cmd = .error e ∧ step s = .next (s.raise .illegalCommand)) ∨
    ((s.nextInput = some .reset ∨ ∃ t, s.nextInput = some (.resetDuring t)) ∧ step s = .next s.takeReset) ∨
    (s.nextInput = some .powerLoss ∧ step s = .next s.losePower) := by
  cases h : s.nextInput with
  | none => exact .inl ⟨rfl, step_idle h⟩
  | some x =>
    cases x with
    | command t =>
      cases hd : decode t.cmd with
      | ok i => exact .inr (.inl ⟨t, i, h, hd, step_decoded h hd⟩)
      | error e => exact .inr (.inr (.inl ⟨t, e, h, hd, step_illegal h hd⟩))
    | reset => exact .inr (.inr (.inr (.inl ⟨.inl rfl, step_reset h⟩)))
    | resetDuring t => exact .inr (.inr (.inr (.inl ⟨.inr ⟨t, rfl⟩, step_resetDuring h⟩)))
    | powerLoss => exact .inr (.inr (.inr (.inr ⟨rfl, step_powerLoss h⟩)))

/-- A command, legal or not, gets exactly one response, and a response that is not OK leaves the block as it was. -/
theorem step_command_eq_answered {s : State} {t : Transaction s.width} (h : s.takes t) :
    ∃ (b : Block s.width) (r : Response s.width),
      step s = .next (s.answered b r) ∧ (r.status ≠ .ok → b = s.block ∧ r.data = []) := by
  cases hd : decode t.cmd with
  | ok i => rw [step_decoded h hd]; exact exec_eq_answered i s
  | error e =>
    rw [step_illegal h hd]
    exact ⟨_, _, congrArg _ (State.raise_eq_answered s _), fun _ => ⟨rfl, rfl⟩⟩

/-! ## Runs -/

/-- A run goes on from the state its first step leaves. -/
theorem run_succ_of_step {k : Nat} {s s' : State} (h : step s = .next s') :
    Sys2Proof.core.run (k + 1) s = Sys2Proof.core.run k s' := by
  have h' : Sys2Proof.core.step s = .next s' := h
  simp only [Host.Core.run, h']

theorem decode_plain_refill {w : Width} : decode (plainTransaction (w := w) .refill).cmd = .ok .refill := by
  show decode 2 = .ok .refill
  decide

theorem decode_plain_nextword {w : Width} : decode (plainTransaction (w := w) .nextword).cmd = .ok .nextword := by
  show decode 3 = .ok .nextword
  decide

end Sys2Proof.Machine
end

