-- ==== Sys2Proof/Tests/Slice0.lean ====
section
/-! SUPPORT. The model's own tests. Every expected value is the spec's: the comment of a test names the vector of
95_test_vectors.md or the rule it comes from. After the tests, one witness for each statement that has hypotheses. -/

namespace Sys2Proof.Tests

open Sys2Proof Sys2Proof.Machine Sys2Proof.Laws.Eval

/-! ## WellFormed refuses ill-formed terms -/

-- MLEN 257 is reserved (R77); RLEN has four bits (R74).
theorem test_wellFormed_refuses_memory_count_257 : (Instr.seed 257 0).wellFormed = false := by decide
theorem test_wellFormed_refuses_register_count_16 : (Instr.seed 0 16).wellFormed = false := by decide
theorem test_wellFormed_admits_the_largest_seed : (Instr.seed 256 15).wellFormed = true := by decide

/-! ## Decoding: words written from the fields of 30_encoding.md R72 to R76, reserved | RLEN | MLEN | OPC -/

theorem test_decode_seed_written_out :
    decode 0b000000000000000_1000_100000000_0001 = .ok (.seed 256 8) := by decide
theorem test_decode_refill_written_out :
    decode 0b0000000000000000000000000000_0010 = .ok .refill := by decide
theorem test_decode_nextword_written_out :
    decode 0b0000000000000000000000000000_0011 = .ok .nextword := by decide
-- V-ENC: the field boundaries.
theorem test_decode_field_boundaries :
    decode 0x00002001 = .ok (.seed 0 1) ∧ decode 0x0000e001 = .ok (.seed 0 7) ∧ decode 0x00012001 = .ok (.seed 0 9) ∧
    decode 0x0001e001 = .ok (.seed 0 15) ∧ decode 0x0001f001 = .ok (.seed 256 15) := by decide
-- V-ENC: the illegal words.
theorem test_decode_illegal :
    decode 0x00001011 = .error .memoryCountReserved ∧ decode 0x00001ff1 = .error .memoryCountReserved ∧
    decode 0x0001fff1 = .error .memoryCountReserved ∧ decode 0x00020001 = .error .reservedBitSet ∧
    decode 0x80000001 = .error .reservedBitSet ∧ decode 0x00000012 = .error .reservedBitSet ∧
    decode 0x80000003 = .error .reservedBitSet ∧ decode 0x0000000f = .error .reservedOpcode := by decide
-- R84: the assembler's word.
theorem test_encode_seed : encode (.seed 256 8) = 0x00011001 ∧ encode .refill = 2 ∧ encode .nextword = 3 := by decide

/-! ## Words, the lookup, the Mixer -/

-- V-WORD.
theorem test_word_operations :
    (0xffffffff + 0x00000002 : Word .w32) = 0x00000001 ∧ (0 - 1 : Word .w64) = 0xffffffffffffffff ∧
    (0x0000ffff ^^^ 0x00ff00ff : Word .w32) = 0x00ffff00 ∧ (~~~0 : Word .w64) = 0xffffffffffffffff ∧
    (0xffffffff : Word .w32) <<< 13 = 0xffffe000 ∧ (0x80000000 : Word .w32) >>> 16 = 0x00008000 := by decide
-- V-IND.
theorem test_indirectIndex_w32 :
    indirectIndex (w := .w32) 0x3 = 0 ∧ indirectIndex (w := .w32) 0x4 = 1 ∧ indirectIndex (w := .w32) 0x3fc = 255 ∧
    indirectIndex (w := .w32) 0x400 = 0 ∧ indirectIndex (w := .w32) 0x12345678 = 158 ∧
    indirectIndex (w := .w32) (0x56047a81 >>> 8) = 30 := by decide
theorem test_indirectIndex_w64 :
    indirectIndex (w := .w64) 0x4 = 0 ∧ indirectIndex (w := .w64) 0x3fc = 127 ∧
    indirectIndex (w := .w64) 0x400 = 128 ∧ indirectIndex (w := .w64) 0x12345678 = 207 ∧
    indirectIndex (w := .w64) (0xb52eb91cb50acf2c >>> 8) = 89 := by decide
-- V-MIX-2, V-MIX-5.
theorem test_mix32 :
    mix32 ⟨1, 0, 0, 0, 0, 0, 0, 0⟩ =
      ⟨0x04010505, 0x04010402, 0x00040705, 0x00000001, 0x00040501, 0x00000102, 0x04010402, 0x00040604⟩ ∧
    mix32 ⟨1, 2, 3, 4, 5, 6, 7, 8⟩ =
      ⟨0x04795161, 0x04691d3b, 0x40647e64, 0x0000100f, 0x40442d18, 0x00102425, 0x04691d36, 0x4054695c⟩ := by decide
-- V-MIX-4, V-MIX-6.
theorem test_mix64 :
    mix64 ⟨1, 0, 0, 0, 0, 0, 0, 0⟩ =
      ⟨0xffffffffff000001, 0xfffc0000000001ff, 0xfffff000000ffdff, 0x00000001ff000001,
        0x03fbfffc01ffbe00, 0x00040ffffff00202, 0x00000ffe00f00401, 0xfffffffe01000000⟩ ∧
    mix64 ⟨1, 2, 3, 4, 5, 6, 7, 8⟩ =
      ⟨0xfffffffffc01fff8, 0x0003fffff80007f8, 0xffffc1e000d00805, 0xffff81fe03fe03e9,
        0xf07bffcbf7fd781b, 0xfffc3e20072fe810, 0x0000be21fb31ec14, 0x00008001fc01fc12⟩ := by decide
-- V-OCT: four applications to eight copies of the golden-ratio constant.
theorem test_defaultOctet_w32 :
    mix32 (mix32 (mix32 (mix32 (Octet.replicate (golden .w32))))) = defaultOctet .w32 := by decide +kernel
theorem test_defaultOctet_w64 :
    mix64 (mix64 (mix64 (mix64 (Octet.replicate (golden .w64))))) = defaultOctet .w64 := by decide +kernel
-- V-AUPD-1, V-AUPD-2.
theorem test_aUpdate32 :
    aUpdate .w32 0x12345678 0 = 0x98fb5678 ∧ aUpdate .w32 0x12345678 1 = 0x127c8721 ∧
    aUpdate .w32 0x12345678 2 = 0x5ae50f98 ∧ aUpdate .w32 0x12345678 3 = 0x1234444c := by decide
theorem test_aUpdate64 :
    aUpdate .w64 0x0123456789abcdef 0 = 0x522d8fe1cbb43210 ∧ aUpdate .w64 0x0123456789abcdef 1 = 0x012a5f4cb5e69380 ∧
    aUpdate .w64 0x0123456789abcdef 2 = 0x35753dfd35753def ∧
    aUpdate .w64 0x0123456789abcdef 3 = 0x01234567893a6f5c := by decide

/-! ## SEED -/

-- V-SEED-1: four words of the default seed's memory, both widths.
theorem test_seed_default_w32 :
    (seedMemory .w32 [] none).read 0 = 0xdb792195 ∧ (seedMemory .w32 [] none).read 101 = 0xe0b5dbd1 ∧
    (seedMemory .w32 [] none).read 128 = 0x754e9eaf ∧ (seedMemory .w32 [] none).read 255 = 0x41bffb5a := by
  simp only [seedMemory_read_eq]
  decide +kernel
theorem test_seed_default_w64 :
    (seedMemory .w64 [] none).read 0 = 0x3b4605f0c7b9c727 ∧ (seedMemory .w64 [] none).read 7 = 0x0e75d80551a53371 ∧
    (seedMemory .w64 [] none).read 248 = 0x6f0b4964a302538e ∧ (seedMemory .w64 [] none).read 255 = 0x4d1569ac67a0df64 := by
  simp only [seedMemory_read_eq]
  decide +kernel

/-! ## REFILL and NEXTWORD -/

theorem reset_words (w : Width) (i : Fin 256) :
    (Block.reset w).m.read i = seededWord [] (defaultOctet w) i.val := by
  rw [Block.reset_m]; exact seedMemory_read_eq [] none i

-- V-REF-1: the registers after the first refill from reset; all 256 steps reach them. b is r[255].
theorem test_refill_after_reset_w32 :
    ((Block.reset .w32).refill.a, (Block.reset .w32).refill.b) = (0x44d22b48, 0x182600f3) := by
  rw [refill_registers (reset_words .w32), Block.reset_a, Block.reset_b, Block.reset_c]
  decide +kernel
theorem test_refill_after_reset_w64 :
    ((Block.reset .w64).refill.a, (Block.reset .w64).refill.b) = (0xce150df74800329a, 0x9d39247e33776d41) := by
  rw [refill_registers (reset_words .w64), Block.reset_a, Block.reset_b, Block.reset_c]
  decide +kernel
/-- The first NEXTWORD after reset answers the first word of the first block. -/
theorem nextword_after_reset (w : Width) :
    ∃ b : Block w, step ((State.resetOf w).withFetchWord 32 3) =
      .next { width := w, block := b, powerLosses := 0,
              port := { pending := [],
                        responses := [{ status := .ok, data := [(Block.reset w).refill.r.read 0] }] } } := by
  have hd : decode (tableTransaction w 32 3).cmd = .ok .nextword := by
    show decode 3 = .ok .nextword
    decide
  have hp : ((State.resetOf w).withFetchWord 32 3).payload = [] := rfl
  have hw : (Block.reset w).servedWord = (Block.reset w).refill.r.read 0 := by
    unfold Block.servedWord Block.cursorWord
    rw [Block.refillIfExhausted_of_eq (by rw [Block.reset_ridx]; rfl), Block.refill_ridx]
    rfl
  refine ⟨(Block.reset w).serve, ?_⟩
  rw [← hw]
  exact (step_decoded (t := tableTransaction w 32 3) rfl hd).trans (exec_nextword_of_payload hp)
-- V-NEXT-1: the first word after reset, both widths.
theorem test_first_word_w32 : (Block.reset .w32).refill.r.read 0 = 0xe76dd339 := by
  rw [refill_first_word (reset_words .w32), Block.reset_a, Block.reset_b, Block.reset_c]
  decide +kernel
theorem test_first_word_w64 : (Block.reset .w64).refill.r.read 0 = 0x48cbff086ddf285a := by
  rw [refill_first_word (reset_words .w64), Block.reset_a, Block.reset_b, Block.reset_c]
  decide +kernel

/-! ## A small machine -/

/-- A machine of width 32 with a block of zeros, these inputs waiting, and this cursor. -/
def small (ridx : Fin 257) (pending : List (HostInput .w32)) : State :=
  { width := .w32
    block := { m := Bank.fill 0, r := Bank.fill 0, a := 0, b := 0, c := 0, ridx := ridx }
    port := { pending := pending, responses := [] }
    powerLosses := 0 }

/-- A transaction at width 32 with a payload of `n` words, all 5. -/
def trans (cmd : CommandWord) (n : Nat) : Transaction .w32 := { cmd := cmd, payload := List.replicate n 5 }

/-- The statuses a step gives. -/
def statuses (s : State) : List Status :=
  match step s with
  | .next t => t.port.responses.map (·.status)
  | _ => []

-- V-REF-3: step 0 and step 1 of the refill of the all-zero state at width 32, from b = 1 and c = 1.
theorem test_refillStep_w32 :
    let s : Block .w32 := { m := Bank.fill 0, r := Bank.fill 0, a := 0, b := 1, c := 1, ridx := 256 }
    (s.stepA 0, s.stepY 0, s.stepB 0) = (0, 1, 1) := by decide
-- V-REF-4: step 0 of the same refill at width 64.
theorem test_refillStep_w64 :
    let s : Block .w64 := { m := Bank.fill 0, r := Bank.fill 0, a := 0, b := 1, c := 1, ridx := 256 }
    (s.stepA 0, s.stepY 0, s.stepB 0) = (0xffffffffffffffff, 0, 0) := by decide

-- V-ERR rows 1, 4, 5, 6, 7, 12, 13, 14 and 15.
theorem test_statuses_illegal :
    statuses (small 256 [.command (trans 0x00000000 0)]) = [.illegalCommand] ∧
    statuses (small 256 [.command (trans 0x00020001 5)]) = [.illegalCommand] ∧
    statuses (small 256 [.command (trans 0x00001011 257)]) = [.illegalCommand] := by decide +kernel
theorem test_statuses_seed :
    statuses (small 256 [.command (trans 0x00006001 2)]) = [.payloadLengthMismatch] ∧
    statuses (small 256 [.command (trans 0x00006001 3)]) = [.invalidSeedConfiguration] ∧
    statuses (small 256 [.command (trans 0x0001e001 15)]) = [.invalidSeedConfiguration] ∧
    statuses (small 256 [.command (trans 0x00000001 1)]) = [.payloadLengthMismatch] ∧
    statuses (small 256 [.command (trans 0x00000011 0)]) = [.payloadLengthMismatch] ∧
    statuses (small 256 [.command (trans 0x00011001 264)]) = [.ok] := by decide +kernel
theorem test_statuses_operandless :
    statuses (small 256 [.command (trans 0x00000002 1)]) = [.payloadLengthMismatch] ∧
    statuses (small 256 [.command (trans 0x00000003 1)]) = [.payloadLengthMismatch] ∧
    statuses (small 255 [.command (trans 0x00000003 0)]) = [.ok] := by decide +kernel
-- R200: the codes.
theorem test_status_codes :
    Status.code .ok = 0 ∧ Status.code .invalidSeedConfiguration = 1 ∧ Status.code .illegalCommand = 2 ∧
    Status.code .payloadLengthMismatch = 3 := by decide

/-! ## Witnesses: for each statement with hypotheses, a state and operands that meet them together -/

/-- The two lists of the assembler at their bounds. -/
abbrev words (n : Nat) : List (Word .w32) := List.replicate n 5

theorem witness_DecodeAfterEncode : (Instr.seed 256 15).wellFormed = true ∧ (Instr.seed 0 0).wellFormed = true := by
  decide
theorem witness_EncodeAfterDecode : decode 0x0001f001 = .ok (.seed 256 15) ∧ decode 2 = .ok .refill := by decide
theorem witness_IllegalWordsByBits :
    (small 256 [.command (trans 0x00020001 0)]).takes (trans 0x00020001 0) ∧
    (small 256 [.command (trans 0x00001001 256)]).takes (trans 0x00001001 256) := ⟨rfl, rfl⟩
theorem witness_OperandlessWordsAreExact :
    (small 256 [.command (trans 0x00000012 0)]).takes (trans 0x00000012 0) ∧
    ((0x00000012 : CommandWord).toNat % 16 = 2 ∧ (0x00000012 : CommandWord) ≠ 0x00000002) ∧
    (small 256 [.command (trans 0x80000003 0)]).takes (trans 0x80000003 0) ∧
    ((0x80000003 : CommandWord).toNat % 16 = 3 ∧ (0x80000003 : CommandWord) ≠ 0x00000003) :=
  ⟨rfl, by decide, rfl, by decide⟩
theorem witness_SeedFieldsAreCounts : (15 : Nat) ≤ 15 := by decide
theorem witness_AssembledSeedCarriesItsLists :
    ((words 256).length ≤ 256 ∧ (words 15).length ≤ 15) ∧ 256 < (words 257).length ∧ 15 < (words 16).length := by
  simp
theorem witness_StepRunsDecodedCommand :
    (small 256 [.command (trans 0x00011001 264)]).takes (trans 0x00011001 264) ∧
    decode (trans 0x00011001 264).cmd = .ok (.seed 256 8) := ⟨rfl, by decide⟩
theorem witness_FetchedWordRuns :
    decodeTableWord 32 0x0001f001 = some (.seed 256 15) ∧ decodeTableWord 32 0x00000003 = some .nextword := by decide
theorem witness_IllegalWordChangesNothing :
    (small 256 [.command (trans 0x00001011 257)]).takes (trans 0x00001011 257) ∧
    decode (trans 0x00001011 257).cmd = .error .memoryCountReserved := ⟨rfl, by decide⟩
theorem witness_IdleStepHoldsState : (small 0 []).port.pending = [] := rfl
theorem witness_WidthIsFixed : step (small 0 []) = .next (small 0 []) := rfl
theorem witness_ResetFromAnyState :
    ([] : List (HostInput .w32)) = [] ∧
    State.payload ⟨.w32, (small 7 []).block, (small 7 []).port, 0⟩ = [] := ⟨rfl, rfl⟩
theorem witness_ConstructorWithBadRegisters :
    (words 256).length ≤ 256 ∧ (words 15).length ≤ 15 ∧ (words 15).length ≠ 0 ∧ (words 15).length ≠ 8 := by simp
theorem witness_StatusFollowsThePriorityList :
    (small 0 [.command (trans 3 0)]).takes (trans 3 0) := rfl
theorem witness_ErrorStatusesExactly :
    (small 0 [.command (trans 0x00006001 3)]).takes (trans 0x00006001 3) := rfl
theorem witness_FailingCommandChangesNothing :
    ∃ b r, (small 0 [.command (trans 4 0)]).takes (trans 4 0) ∧
      step (small 0 [.command (trans 4 0)]) = .next ((small 0 [.command (trans 4 0)]).answered b r) ∧
      r.status ≠ .ok :=
  ⟨(small 0 []).block, { status := .illegalCommand, data := [] }, rfl, rfl, by decide⟩
/-- The first word of a refill of zeros is 1 (V-REF-3), so a refill of zeros changes `r`. -/
theorem refill_small_r : (small 0 []).block.refill.r ≠ (small 0 []).block.r := by
  intro h
  have h' : (small 0 []).block.refill.r.read 0 = (small 0 []).block.r.read 0 := by rw [h]
  rw [Block.refill_r_zero] at h'
  exact absurd h' (by decide +kernel)
theorem witness_OnlySeedAndRefillWriteStorage :
    ∃ b r, (small 0 [.command (trans 2 0)]).takes (trans 2 0) ∧
      step (small 0 [.command (trans 2 0)]) = .next ((small 0 [.command (trans 2 0)]).answered b r) ∧
      b.c ≠ (small 0 [.command (trans 2 0)]).block.c ∧ b.r ≠ (small 0 [.command (trans 2 0)]).block.r := by
  have hd : decode (trans 2 0).cmd = .ok .refill := by decide
  refine ⟨_, _, rfl, (step_decoded (t := trans 2 0) rfl hd).trans (exec_refill_of_payload rfl), ?_, refill_small_r⟩
  rw [Block.refill_c]; decide
theorem witness_SeedLeavesTheRecurrence :
    ((8 : Nat) = 0 ∨ (8 : Nat) = 8) ∧ (small 0 [.command (trans 0x00011001 264)]).payload.length = 256 + 8 ∧
    ((0 : Nat) = 0 ∨ (0 : Nat) = 8) ∧ (small 0 [.command (trans 0x00000001 0)]).payload.length = 0 + 0 :=
  ⟨.inr rfl, List.length_replicate, .inl rfl, rfl⟩
theorem witness_SeedRecurrenceHasOneSolution :
    ∃ m : Bank .w32, SeedRecurrence [1, 2] (defaultOctet .w32) m :=
  ⟨_, seedMemory_recurrence .w32 [1, 2] none⟩
theorem witness_SeedTurnedAway :
    (small 0 [.command (trans 0x00010001 7)]).payload.length ≠ 0 + 8 ∧
    (small 0 [.command (trans 0x0000e001 7)]).payload.length = 0 + 7 ∧ (7 : Nat) ≠ 0 ∧ (7 : Nat) ≠ 8 := by decide
theorem witness_SeedIgnoresPriorState :
    ((8 : Nat) = 0 ∨ (8 : Nat) = 8) ∧
    State.payload ⟨.w32, (small 0 []).block, (small 0 [.command (trans 0x00010001 8)]).port, 0⟩ =
      State.payload ⟨.w32, (small 9 []).block, (small 0 [.command (trans 0x00010001 8)]).port, 3⟩ ∧
    (State.payload ⟨.w32, (small 0 []).block, (small 0 [.command (trans 0x00010001 8)]).port, 0⟩).length = 0 + 8 := by
  decide
theorem witness_SeedIsIdempotent : decode (trans 0x0001f001 0).cmd = .ok (.seed 256 15) := by decide
theorem witness_EquivalentSeeds :
    (words 200).length + 56 ≤ 256 ∧ ([] : List (Word .w32)).length + 256 ≤ 256 := by simp
theorem witness_ZeroSeedStaysZero :
    ∃ s : State, s.payload.length = 256 + 8 ∧ ∀ x ∈ s.payload, x = 0 :=
  ⟨small 0 [.command { cmd := 0x00011001, payload := List.replicate 264 0 }], List.length_replicate, fun x hx => (List.mem_replicate.1 (show x ∈ List.replicate 264 (0 : Word .w32) from hx)).2⟩
theorem witness_RefillFollowsTheRecurrence : (small 3 [.command (trans 2 0)]).payload = [] := rfl
theorem witness_RefillRecurrenceHasOneSolution : ∃ t, (small 3 []).block.RefillsTo t :=
  ⟨_, Block.refill_refillsTo _⟩
theorem witness_RefillIgnoresCursorAndOldBlock :
    (small 3 []).block.m = (small 256 []).block.m ∧ (small 3 []).block.a = (small 256 []).block.a ∧
    (small 3 []).block.b = (small 256 []).block.b ∧ (small 3 []).block.c = (small 256 []).block.c ∧
    State.payload ⟨.w32, (small 3 []).block, (small 3 [.command (trans 2 0)]).port, 0⟩ = [] :=
  ⟨rfl, rfl, rfl, rfl, rfl⟩
theorem witness_CounterWraps :
    ∃ s : State, s.payload = [] ∧ s.block.c = BitVec.allOnes s.width.bits :=
  ⟨{ small 256 [] with block := { (small 256 []).block with c := 0xffffffff } }, rfl, by decide⟩
theorem witness_OperandlessCommandsRefuseAPayload : (small 3 [.command (trans 2 1)]).payload ≠ [] := by decide
theorem witness_NextwordServesTheCursor :
    (small 255 [.command (trans 3 0)]).block.ridx.val < 256 ∧ (small 255 [.command (trans 3 0)]).payload = [] ∧
    (small 0 [.command (trans 3 0)]).block.ridx.val < 256 := by decide
theorem witness_NextwordRefillsFirst :
    (small 256 [.command (trans 3 0)]).block.ridx.val = 256 ∧ (small 256 [.command (trans 3 0)]).payload = [] := by
  decide
theorem witness_NextwordsWalkTheBlock : (small 256 []).block.ridx.val = 256 := by decide
theorem witness_NextwordCountsBlocks : (small 256 []).block.ridx.val = 256 ∧ (small 256 []).block.c = 0 := by decide
theorem witness_ConsumedWordsAreUnobservable :
    ∃ b1 b2 : Block .w32, b1.SameButConsumed b2 ∧ b1 ≠ b2 := by
  refine ⟨(small 1 []).block, { (small 1 []).block with r := (Bank.fill 0).write 0 1 },
    ⟨rfl, rfl, rfl, rfl, rfl, fun k hk => ?_⟩, fun h => ?_⟩
  · show (Bank.fill 0).read k = ((Bank.fill 0).write 0 1).read k
    have h1 : 1 ≤ k.val := hk
    rw [Bank.read_write_other _ _ (fun e => by rw [← e] at h1; exact absurd h1 (by decide))]
  · have h' := congrArg (fun b : Block .w32 => b.r.read 0) h
    exact absurd h' (by decide)
theorem witness_NextwordAfterSeed :
    ∃ t, (words 8).length = 8 ∧ seedTransaction (words 256) (words 8) = some t :=
  ⟨_, by decide, if_pos ⟨by simp, by decide⟩⟩
theorem witness_StepKeepsTheInvariant :
    ∃ t, (small 0 [.command (trans 3 0)]).Inv ∧ step (small 0 [.command (trans 3 0)]) = .next t := by
  refine ⟨_, ⟨?_, ?_, by decide⟩, rfl⟩
  · intro x hx
    rw [List.mem_singleton.1 (show x ∈ [HostInput.command (trans 3 0)] from hx)]
    exact fun h => nomatch h
  · intro r hr
    exact absurd hr (List.not_mem_nil (a := r))

end Sys2Proof.Tests
end

/-! # The state family: what every step keeps, and what no command can observe (10_state.md) -/

namespace Sys2Proof.Machine

variable {w : Width}

/-! ## The refill equations have one solution

Position `n` of the new memory is fixed by the old memory, the registers before step `n`, and the new memory below `n`
(43_refiller.md R165, R168, R169): an induction over the 256 positions fixes the whole block. -/

/-- The two arrays hold the same words at the positions below `n`. -/
def Bank.AgreeBelow (m m' : Bank w) (n : Nat) : Prop := ∀ k : Fin 256, k.val < n → m.read k = m'.read k

theorem Bank.agreeBelow_zero (m m' : Bank w) : m.AgreeBelow m' 0 := fun _ hk => absurd hk (Nat.not_lt_zero _)

theorem Bank.AgreeBelow.succ {m m' : Bank w} {i : Fin 256} (h : m.AgreeBelow m' i.val) (hi : m.read i = m'.read i) :
    m.AgreeBelow m' (i.val + 1) := by
  intro k hk
  obtain hlt | heq := Nat.lt_succ_iff_lt_or_eq.mp hk
  · exact h k hlt
  · rw [Fin.ext heq, hi]

theorem Bank.AgreeBelow.eq {m m' : Bank w} (h : m.AgreeBelow m' 256) : m = m' := Bank.ext fun i => h i i.isLt

theorem Bank.AgreeBelow.mixedRead_eq {new new' : Bank w} {n : Nat} (h : new.AgreeBelow new' n) (old : Bank w)
    (k : Fin 256) : mixedRead old new n k = mixedRead old new' n k := by
  unfold mixedRead
  split
  · next hk => exact h k hk
  · rfl

theorem Bank.AgreeBelow.partnerWord_eq {new new' : Bank w} {i : Fin 256} (h : new.AgreeBelow new' i.val)
    (old : Bank w) : partnerWord old new i = partnerWord old new' i := by
  rw [← mixedRead_partner, ← mixedRead_partner, h.mixedRead_eq]

/-- A step's equations fix the registers after it and the two words it writes. -/
theorem RefillStepHolds.unique {old new new' out out' : Bank w} {i : Fin 256} {a b a₁ b₁ a₂ b₂ : Word w}
    (hbelow : new.AgreeBelow new' i.val) (h : RefillStepHolds old new out i a b a₁ b₁)
    (h' : RefillStepHolds old new' out' i a b a₂ b₂) :
    a₁ = a₂ ∧ b₁ = b₂ ∧ new.read i = new'.read i ∧ out.read i = out'.read i := by
  obtain ⟨ha, hy, hb, hout⟩ := h
  obtain ⟨ha', hy', hb', hout'⟩ := h'
  have ea : a₁ = a₂ := by rw [ha, ha', hbelow.partnerWord_eq]
  have ey : new.read i = new'.read i := by rw [hy, hy', ea, hbelow.mixedRead_eq]
  have eb : b₁ = b₂ := by rw [hb, hb', ey, (hbelow.succ ey).mixedRead_eq]
  exact ⟨ea, eb, ey, by rw [hout, hout', eb]⟩

theorem RefillRecurrence.unique {old new new' out out' : Bank w} {a0 b0 a1 b1 a1' b1' : Word w}
    (h : RefillRecurrence old new out a0 b0 a1 b1) (h' : RefillRecurrence old new' out' a0 b0 a1' b1') :
    new = new' ∧ out = out' ∧ a1 = a1' ∧ b1 = b1' := by
  obtain ⟨a, b, ha0, hb0, ha1, hb1, hstep⟩ := h
  obtain ⟨a', b', ha0', hb0', ha1', hb1', hstep'⟩ := h'
  have hagree : ∀ n ≤ 256, a n = a' n ∧ b n = b' n ∧ new.AgreeBelow new' n ∧ out.AgreeBelow out' n := by
    intro n
    induction n with
    | zero =>
      intro _
      exact ⟨ha0.trans ha0'.symm, hb0.trans hb0'.symm, Bank.agreeBelow_zero _ _, Bank.agreeBelow_zero _ _⟩
    | succ n ih =>
      intro hn
      obtain ⟨ea, eb, hnew, hout⟩ := ih (by omega)
      have hs := hstep ⟨n, hn⟩
      simp only [ea, eb] at hs
      obtain ⟨ea', eb', ey, eo⟩ := hs.unique hnew (hstep' ⟨n, hn⟩)
      exact ⟨ea', eb', hnew.succ (i := ⟨n, hn⟩) ey, hout.succ (i := ⟨n, hn⟩) eo⟩
  obtain ⟨ea, eb, hnew, hout⟩ := hagree 256 (Nat.le_refl _)
  exact ⟨hnew.eq, hout.eq, by rw [← ha1, ← ha1', ea], by rw [← hb1, ← hb1', eb]⟩

theorem Block.RefillsTo.unique {s t t' : Block w} (h : s.RefillsTo t) (h' : s.RefillsTo t') : t = t' := by
  obtain ⟨hrec, hc, hridx⟩ := h
  obtain ⟨hrec', hc', hridx'⟩ := h'
  obtain ⟨em, er, ea, eb⟩ := hrec.unique hrec'
  have eridx : t.ridx = t'.ridx := Fin.ext (hridx.trans hridx'.symm)
  have ec : t.c = t'.c := hc.trans hc'.symm
  cases t
  cases t'
  simp only [Block.mk.injEq]
  exact ⟨em, er, ea, eb, ec, eridx⟩

/-- A refill leaves the last word of the new block in `b` (43_refiller.md R166). -/
theorem Block.RefillsTo.b_eq_last {s t : Block w} (h : s.RefillsTo t) : t.b = t.r.read 255 := by
  obtain ⟨⟨a, b, _, _, _, hb1, hstep⟩, _, _⟩ := h
  obtain ⟨_, _, _, hout⟩ := hstep 255
  exact hb1.symm.trans hout.symm

/-- The refill equations speak of the old block's `m`, `a`, `b` and `c` only (10_state.md R38), so blocks that agree
there have one and the same refill. -/
theorem Block.refill_congr {s t : Block w} (hm : s.m = t.m) (ha : s.a = t.a) (hb : s.b = t.b) (hc : s.c = t.c) :
    s.refill = t.refill := by
  have h : s.RefillsTo t.refill := by
    unfold Block.RefillsTo
    rw [hm, ha, hb, hc]
    exact Block.refill_refillsTo t
  exact (Block.refill_refillsTo s).unique h

/-! ## Blocks that differ only in consumed words (10_state.md R27) -/

theorem Block.SameButConsumed.refl (s : Block w) : s.SameButConsumed s := ⟨rfl, rfl, rfl, rfl, rfl, fun _ _ => rfl⟩

/-- A SEED consumes every word of `r`, so what it leaves of any two blocks differs only there. -/
theorem Block.seed_sameButConsumed (s t : Block w) (mem : List (Word w)) (regs : Option (Octet w)) :
    (s.seed mem regs).SameButConsumed (t.seed mem regs) := by
  refine ⟨rfl, rfl, rfl, rfl, rfl, fun k hk => ?_⟩
  have h256 : 256 ≤ k.val := hk
  omega

theorem Block.SameButConsumed.refill_eq {s t : Block w} (h : s.SameButConsumed t) : s.refill = t.refill := by
  obtain ⟨hm, ha, hb, hc, _, _⟩ := h
  exact Block.refill_congr hm ha hb hc

theorem Block.SameButConsumed.refillIfExhausted {s t : Block w} (h : s.SameButConsumed t) :
    s.refillIfExhausted.SameButConsumed t.refillIfExhausted := by
  have ⟨_, _, _, _, hridx, _⟩ := h
  by_cases hlt : s.ridx.val < 256
  · rwa [Block.refillIfExhausted_of_lt hlt, Block.refillIfExhausted_of_lt (hridx ▸ hlt)]
  · have hs : s.ridx.val = 256 := by omega
    rw [Block.refillIfExhausted_of_eq hs, Block.refillIfExhausted_of_eq (hridx ▸ hs), h.refill_eq]
    exact .refl _

/-- The word under the cursor is not consumed. -/
theorem Block.SameButConsumed.cursorWord_eq {s t : Block w} (h : s.SameButConsumed t) (hlt : s.ridx.val < 256) :
    s.cursorWord = t.cursorWord := by
  obtain ⟨_, _, _, _, hridx, hr⟩ := h
  unfold Block.cursorWord
  rw [← hridx]
  exact hr _ (by simp [Nat.mod_eq_of_lt hlt])

theorem Block.SameButConsumed.advance {s t : Block w} (h : s.SameButConsumed t) (hlt : s.ridx.val < 256) :
    s.advance.SameButConsumed t.advance := by
  obtain ⟨hm, ha, hb, hc, hridx, hr⟩ := h
  refine ⟨hm, ha, hb, hc, by simp [hridx], fun k hk => hr k ?_⟩
  rw [Block.advance_ridx_val hlt] at hk
  omega

theorem Block.SameButConsumed.servedWord_eq {s t : Block w} (h : s.SameButConsumed t) : s.servedWord = t.servedWord :=
  h.refillIfExhausted.cursorWord_eq s.refillIfExhausted_ridx_lt

theorem Block.SameButConsumed.serve {s t : Block w} (h : s.SameButConsumed t) : s.serve.SameButConsumed t.serve :=
  h.refillIfExhausted.advance s.refillIfExhausted_ridx_lt

/-- Both outcomes are next states of width `w` with one and the same port, whose blocks differ at most in consumed
words. -/
def SameStep (w : Width) (o1 o2 : Host.Outcome State Fault Refusal) : Prop :=
  ∃ (c1 c2 : Block w) (q : Port w) (k : Nat),
    o1 = .next ⟨w, c1, q, k⟩ ∧ o2 = .next ⟨w, c2, q, k⟩ ∧ c1.SameButConsumed c2

/-- Blocks that differ at most in consumed words still do after a command ends with one status and one response on both,
whether its effects take place or not. -/
theorem sameStep_finish {b1 b2 e1 e2 : Block w} (p : Port w) (n : Nat) (st : Status) (d : List (Word w))
    (hb : b1.SameButConsumed b2) (he : e1.SameButConsumed e2) :
    SameStep w (.next (State.finish ⟨w, b1, p, n⟩ st e1 d)) (.next (State.finish ⟨w, b2, p, n⟩ st e2 d)) := by
  rw [State.finish_eq_answered, State.finish_eq_answered]
  refine ⟨_, _, _, _, rfl, rfl, ?_⟩
  split
  · exact he
  · exact hb

theorem sameStep_exec (i : Instr) {b1 b2 : Block w} (p : Port w) (n : Nat) (h : b1.SameButConsumed b2) :
    SameStep w (exec i ⟨w, b1, p, n⟩) (exec i ⟨w, b2, p, n⟩) := by
  cases i with
  | seed mlen rlen => exact sameStep_finish p n _ _ h (Block.seed_sameButConsumed ..)
  | refill =>
    rw [exec_refill_eq, exec_refill_eq]
    simp only [← h.refill_eq]
    exact sameStep_finish p n _ _ h (.refl _)
  | nextword =>
    rw [exec_nextword_eq, exec_nextword_eq]
    simp only [← h.servedWord_eq]
    exact sameStep_finish p n _ _ h h.serve

theorem sameStep_runCommand (cmd : CommandWord) {b1 b2 : Block w} (p : Port w) (n : Nat) (h : b1.SameButConsumed b2) :
    SameStep w (runCommand cmd ⟨w, b1, p, n⟩) (runCommand cmd ⟨w, b2, p, n⟩) := by
  unfold runCommand
  cases decode cmd with
  | ok i => exact sameStep_exec i p n h
  | error e => exact ⟨_, _, _, _, rfl, rfl, h⟩

theorem sameStep_step {b1 b2 : Block w} (p : Port w) (n : Nat) (h : b1.SameButConsumed b2) :
    SameStep w (step ⟨w, b1, p, n⟩) (step ⟨w, b2, p, n⟩) := by
  cases hp : p.nextInput with
  | none => exact ⟨_, _, _, _, step_idle hp, step_idle hp, h⟩
  | some x =>
    cases x with
    | command t =>
      have h1 : State.takes ⟨w, b1, p, n⟩ t := hp
      have h2 : State.takes ⟨w, b2, p, n⟩ t := hp
      rw [step_command h1, step_command h2]
      exact sameStep_runCommand t.cmd p n h
    | reset => exact ⟨_, _, _, _, step_reset hp, step_reset hp, .refl _⟩
    | resetDuring t => exact ⟨_, _, _, _, step_resetDuring hp, step_resetDuring hp, .refl _⟩
    | powerLoss => exact ⟨_, _, _, _, step_powerLoss hp, step_powerLoss hp, .refl _⟩

/-! ## The invariant of a run -/

theorem Block.lastWordInB_iff (s : Block w) : s.lastWordInB = true ↔ (s.ridx.val < 256 → s.b = s.r.read 255) := by
  rw [Block.lastWordInB, decide_eq_true_iff]

/-- An empty buffer asks nothing of `b`. -/
theorem Block.lastWordInB_of_empty {s : Block w} (h : s.ridx.val = 256) : s.lastWordInB = true :=
  s.lastWordInB_iff.mpr fun hlt => by omega

theorem Block.lastWordInB_refill (s : Block w) : s.refill.lastWordInB = true :=
  s.refill.lastWordInB_iff.mpr fun _ => s.refill_refillsTo.b_eq_last

theorem Block.lastWordInB_refillIfExhausted {s : Block w} (h : s.lastWordInB = true) :
    s.refillIfExhausted.lastWordInB = true := by
  unfold Block.refillIfExhausted
  split
  · exact s.lastWordInB_refill
  · exact h

theorem Block.lastWordInB_serve {s : Block w} (h : s.lastWordInB = true) : s.serve.lastWordInB = true :=
  s.serve.lastWordInB_iff.mpr fun _ =>
    (s.refillIfExhausted.lastWordInB_iff).mp (Block.lastWordInB_refillIfExhausted h) s.refillIfExhausted_ridx_lt

theorem Response.wellShaped_error {st : Status} (h : st ≠ .ok) :
    Response.wellShaped (w := w) { status := st, data := [] } = true := by
  cases st with
  | ok => exact absurd rfl h
  | invalidSeedConfiguration => rfl
  | illegalCommand => rfl
  | payloadLengthMismatch => rfl

theorem Response.wellShaped_ok {d : List (Word w)} (h : d.length = 0 ∨ d.length = 1 ∨ d.length = 256) :
    Response.wellShaped { status := .ok, data := d } = true := by
  simpa [Response.wellShaped, or_assoc] using h

/-- An input taken from the port leaves fewer that wait. -/
theorem State.Inv.pending_tail {s : State} (h : s.Inv) : ∀ x ∈ s.port.pending.tail, x ≠ .powerLoss := by
  obtain ⟨hpending, _, _⟩ := h
  exact fun x hx => hpending x (List.mem_of_mem_tail hx)

theorem State.Inv.answered {s : State} (h : s.Inv) {b : Block s.width} {r : Response s.width}
    (hr : r.wellShaped = true) (hb : b.lastWordInB = true) : (s.answered b r).Inv := by
  refine ⟨h.pending_tail, fun x hx => ?_, hb⟩
  obtain ⟨_, hresponses, _⟩ := h
  obtain hold | hnew := List.mem_append.mp hx
  · exact hresponses x hold
  · rw [List.mem_singleton.mp hnew]
    exact hr

theorem State.Inv.raise {s : State} (h : s.Inv) {st : Status} (hst : st ≠ .ok) : (s.raise st).Inv := by
  have ⟨_, _, hlast⟩ := h
  exact h.answered (Response.wellShaped_error hst) hlast

/-- A command that would leave the invariant under OK leaves it under any status. -/
theorem State.Inv.finish {s : State} (h : s.Inv) (st : Status) {b : Block s.width} {d : List (Word s.width)}
    (hd : d.length = 0 ∨ d.length = 1 ∨ d.length = 256) (hb : b.lastWordInB = true) : (s.finish st b d).Inv := by
  cases st with
  | ok => exact h.answered (Response.wellShaped_ok hd) hb
  | invalidSeedConfiguration => exact h.raise (by decide)
  | illegalCommand => exact h.raise (by decide)
  | payloadLengthMismatch => exact h.raise (by decide)

theorem State.Inv.takeReset {s : State} (h : s.Inv) : s.takeReset.Inv := by
  have ⟨_, hresponses, _⟩ := h
  exact ⟨h.pending_tail, hresponses, Block.lastWordInB_of_empty (by simp)⟩

theorem State.Inv.exec {s t : State} (h : s.Inv) (i : Instr) (he : exec i s = .next t) : t.Inv := by
  have ⟨_, _, hlast⟩ := h
  cases i with
  | seed mlen rlen =>
    cases he
    exact h.finish _ (.inl rfl) (Block.lastWordInB_of_empty rfl)
  | refill =>
    cases he
    exact h.finish _ (.inr (.inr (Bank.length_toList _))) (Block.lastWordInB_refill _)
  | nextword =>
    cases he
    exact h.finish _ (.inr (.inl rfl)) (Block.lastWordInB_serve hlast)

theorem State.Inv.nextInput_ne_powerLoss {s : State} (h : s.Inv) : s.nextInput ≠ some .powerLoss := by
  obtain ⟨hpending, _, _⟩ := h
  exact fun hp => hpending _ (List.mem_of_head? hp) rfl

theorem State.Inv.step {s t : State} (h : s.Inv) (hst : step s = .next t) : t.Inv := by
  obtain ⟨_, hs⟩ | ⟨_, i, _, _, hs⟩ | ⟨_, _, _, _, hs⟩ | ⟨_, hs⟩ | ⟨hp, _⟩ := step_cases s
  · cases hs.symm.trans hst
    exact h
  · exact h.exec i (hs.symm.trans hst)
  · cases hs.symm.trans hst
    exact h.raise (by decide)
  · cases hs.symm.trans hst
    exact h.takeReset
  · exact absurd hp h.nextInput_ne_powerLoss

theorem State.resetOf_inv (w : Width) : (State.resetOf w).Inv :=
  ⟨fun _ hx => absurd hx List.not_mem_nil, fun _ hr => absurd hr List.not_mem_nil,
    Block.lastWordInB_of_empty (by simp)⟩

/-! ## What reset and SEED leave, and what a command may write -/

/-- The memory after reset is the one SEED without words leaves (10_state.md R36). -/
theorem Block.reset_seedRecurrence (w : Width) : SeedRecurrence [] (defaultOctet w) (Block.reset w).m := by
  rw [Block.reset_m]
  exact seedMemory_recurrence w [] none

/-- A SEED with a legal register count and a payload of the expected length completes. -/
theorem exec_seed_of_payload {mlen rlen : Nat} {s : State} (hr : rlen = 0 ∨ rlen = 8)
    (hl : s.payload.length = mlen + rlen) :
    exec (.seed mlen rlen) s = .next (s.answered
      (s.block.seed (seedMemoryWords mlen s.payload) (suppliedOctet mlen rlen s.payload))
      { status := .ok, data := [] }) := by
  rw [exec_seed_eq, seedStatus_ok hl hr]
  rfl

/-- However a command ends, the block is as before or as its effects leave it. -/
theorem State.block_of_finish {s : State} {st : Status} {e b : Block s.width} {d : List (Word s.width)}
    {r : Response s.width} (h : s.finish st e d = s.answered b r) : b = s.block ∨ b = e := by
  rw [State.finish_eq_answered] at h
  obtain ⟨hb, _⟩ := State.answered_inj h
  split at hb
  · exact .inr hb.symm
  · exact .inl hb.symm

/-- A SEED does not write `r`. -/
theorem exec_seed_r {mlen rlen : Nat} {s : State} {b : Block s.width} {r : Response s.width}
    (h : exec (.seed mlen rlen) s = .next (s.answered b r)) : b.r = s.block.r := by
  rw [exec_seed_eq] at h
  obtain rfl | rfl := State.block_of_finish (Host.Outcome.next.inj h) <;> rfl

/-- A NEXTWORD on a buffered block writes the cursor only. -/
theorem exec_nextword_storage {s : State} {b : Block s.width} {r : Response s.width} (hlt : s.block.ridx.val < 256)
    (h : exec .nextword s = .next (s.answered b r)) :
    b.m = s.block.m ∧ b.r = s.block.r ∧ b.a = s.block.a ∧ b.b = s.block.b ∧ b.c = s.block.c := by
  rw [exec_nextword_eq, Block.serve, Block.refillIfExhausted_of_lt hlt] at h
  obtain rfl | rfl := State.block_of_finish (Host.Outcome.next.inj h) <;> exact ⟨rfl, rfl, rfl, rfl, rfl⟩

/-- An illegal word changes no state of the block. -/
theorem step_illegal_block {s : State} {t : Transaction s.width} {e : Illegal} {b : Block s.width}
    {r : Response s.width} (ht : s.takes t) (hd : decode t.cmd = .error e) (h : step s = .next (s.answered b r)) :
    b = s.block := by
  rw [step_illegal ht hd, State.raise_eq_answered] at h
  obtain ⟨hb, _⟩ := State.answered_inj (Host.Outcome.next.inj h)
  exact hb.symm

end Sys2Proof.Machine

/-! ## The state family settled -/

namespace Sys2Proof.Proofs

open Sys2Proof.Machine

/-- Settles O44: the relation is preserved input by input, and NEXTWORD reads only at the cursor. -/
theorem consumedWordsAreUnobservable : Obligations.ConsumedWordsAreUnobservable :=
  fun _ _ _ p n h => sameStep_step p n h

/-- Settles O47: `b = r[255]` comes from step 255 of the refill equations. -/
theorem stepKeepsTheInvariant : Obligations.StepKeepsTheInvariant :=
  fun _ _ h hst => h.step hst

/-- Settles O14: reset and a SEED without words leave the same seeded memory. -/
theorem resetFromAnyState : Obligations.ResetFromAnyState := by
  intro w b rest rs n
  refine ⟨Block.reset w, step_reset rfl, Block.reset_seedRecurrence w, by simp, by simp, by simp, by simp, ?_, ?_⟩
  · rintro rfl
    exact step_idle rfl
  · intro b0 p0 n0 hp
    refine ⟨_, exec_seed_of_payload (.inl rfl) (by rw [hp]; rfl), ?_⟩
    simp [hp, seedMemoryWords, suppliedOctet]

/-- Settles O22, by the command's row: an illegal word and a NEXTWORD on a buffered block write none of the five, and a
SEED leaves `r`. -/
theorem onlySeedAndRefillWriteStorage : Obligations.OnlySeedAndRefillWriteStorage := by
  intro s t b r ht hst
  cases hd : decode t.cmd with
  | error e =>
    obtain rfl := step_illegal_block ht hd hst
    exact ⟨fun h => by simp at h, fun h => absurd rfl h⟩
  | ok i =>
    rw [step_decoded ht hd] at hst
    cases i with
    | seed mlen rlen => exact ⟨fun _ => .inl ⟨mlen, rlen, rfl⟩, fun h => absurd (exec_seed_r hst) h⟩
    | refill => exact ⟨fun _ => .inr (.inl rfl), fun _ => .inl rfl⟩
    | nextword =>
      by_cases hlt : s.block.ridx.val < 256
      · obtain ⟨hm, hr, ha, hb, hc⟩ := exec_nextword_storage hlt hst
        exact ⟨fun h => by simp [hm, ha, hb, hc] at h, fun h => absurd hr h⟩
      · have hempty : s.block.ridx.val = 256 := by omega
        exact ⟨fun _ => .inr (.inr ⟨rfl, hempty⟩), fun _ => .inr ⟨rfl, hempty⟩⟩

/-- Settles O26: every field SEED writes is a function of its payload, and the buffer is empty after it. -/
theorem seedIgnoresPriorState : Obligations.SeedIgnoresPriorState := by
  intro w b1 b2 p1 p2 n1 n2 mlen rlen hr hp hl
  refine ⟨_, _, exec_seed_of_payload hr hl, exec_seed_of_payload hr (hp ▸ hl), ?_⟩
  rw [hp]
  exact Block.seed_sameButConsumed ..

/-- Settles O36, by the induction over positions in `RefillRecurrence.unique`. -/
theorem refillRecurrenceHasOneSolution : Obligations.RefillRecurrenceHasOneSolution :=
  fun _ _ _ _ h h' => h.unique h'

/-- Settles O37, from the one solution of the refill equations. -/
theorem refillIgnoresCursorAndOldBlock : Obligations.RefillIgnoresCursorAndOldBlock := by
  intro w s t p n hm ha hb hc hp
  refine ⟨_, exec_refill_of_payload hp, (exec_refill_of_payload (s := ⟨w, t, p, n⟩) hp).trans ?_⟩
  simp only [Block.refill_congr hm ha hb hc]
  rfl

/-- Settles O38: the refill equations at `c + 1 = 0`. -/
theorem counterWraps : Obligations.CounterWraps := by
  intro s hp hc
  have hwrap : s.block.c + 1 = 0 := by
    rw [hc, ← BitVec.neg_one_eq_allOnes]
    exact BitVec.add_left_neg 1
  obtain ⟨hrec, hc', _⟩ := s.block.refill_refillsTo
  have hb : s.block.b + (s.block.c + 1) = s.block.b := by rw [hwrap]; exact BitVec.add_zero _
  rw [hb] at hrec
  exact ⟨_, exec_refill_of_payload hp, hc'.trans hwrap, hrec⟩

/-- Settles O8: nothing stands between a decoded command at the port and `exec`. -/
theorem stepRunsDecodedCommand : Obligations.StepRunsDecodedCommand :=
  fun _ _ _ ht hd => ⟨step_decoded ht hd, State.payload_of_takes ht⟩

/-- Settles O13, by everything a step can do. -/
theorem widthIsFixed : Obligations.WidthIsFixed := by
  intro s t hst
  have width_of_step {u : State} (hs : step s = .next u) (hu : u.width = s.width) : t.width = s.width := by
    cases hs.symm.trans hst
    exact hu
  obtain ⟨_, hs⟩ | ⟨_, i, _, _, hs⟩ | ⟨_, _, _, _, hs⟩ | ⟨_, hs⟩ | ⟨_, hs⟩ := step_cases s
  · exact width_of_step hs rfl
  · obtain ⟨b, r, he, _⟩ := exec_eq_answered i s
    exact width_of_step (hs.trans he) rfl
  · exact width_of_step hs rfl
  · exact width_of_step hs rfl
  · exact width_of_step hs rfl

/-- Settles O17, by the fields of the reset block. -/
theorem resetStateIsTheDefaultSeed : Obligations.ResetStateIsTheDefaultSeed := by
  intro w
  exact ⟨rfl, rfl, Block.reset_seedRecurrence w, by simp, by simp, by simp, by simp⟩

/-- Settles O48: the port is empty and nothing is buffered. -/
theorem resetMeetsTheInvariant : Obligations.ResetMeetsTheInvariant :=
  ⟨State.resetOf_inv _, State.resetOf_inv⟩

end Sys2Proof.Proofs

/-! # The memory family: a SEED leaves the same storage however often it is sent (20_memory.md) -/

namespace Sys2Proof.Machine

variable {w : Width}

/-- What a SEED with this payload leaves of a block: its effects under OK, the block as it was under any other status
(20_memory.md R57, 60_exceptions.md R201). -/
def Block.afterSeed (mlen rlen : Nat) (payload : List (Word w)) (s : Block w) : Block w :=
  if seedStatus mlen rlen payload.length = .ok then
    s.seed (seedMemoryWords mlen payload) (suppliedOctet mlen rlen payload)
  else s

/-- Only the last of two successful SEEDs counts: every field SEED writes comes from its payload, and `r` it keeps. -/
@[simp] theorem Block.seed_seed (s : Block w) (mem mem' : List (Word w)) (regs regs' : Option (Octet w)) :
    (s.seed mem regs).seed mem' regs' = s.seed mem' regs' := rfl

theorem Block.afterSeed_idem (mlen rlen : Nat) (payload : List (Word w)) (s : Block w) :
    (s.afterSeed mlen rlen payload).afterSeed mlen rlen payload = s.afterSeed mlen rlen payload := by
  by_cases hok : seedStatus mlen rlen payload.length = .ok
  · simp only [Block.afterSeed, if_pos hok, Block.seed_seed]
  · simp only [Block.afterSeed, if_neg hok]

/-- A SEED at the head of the port is answered without data, with a status that no field of the block enters. -/
theorem step_seed {s : State} {t : Transaction s.width} {mlen rlen : Nat} (ht : s.takes t)
    (hd : decode t.cmd = .ok (.seed mlen rlen)) :
    step s = .next (s.answered (s.block.afterSeed mlen rlen t.payload)
      { status := seedStatus mlen rlen t.payload.length, data := [] }) := by
  rw [step_decoded ht hd, exec_seed_eq, State.payload_of_takes ht, State.finish_eq_answered, ite_self]
  rfl

end Sys2Proof.Machine

/-! ## The memory family settled -/

namespace Sys2Proof.Proofs

open Sys2Proof.Machine

/-- Settles O27: both SEEDs have one status; under OK the second writes the same fields again, and under any other
status neither writes. -/
theorem seedIsIdempotent : Obligations.SeedIsIdempotent := by
  intro w b t rest rs n mlen rlen hd
  refine ⟨b.afterSeed mlen rlen t.payload, _, ⟨seedStatus mlen rlen t.payload.length, []⟩, step_seed rfl hd, ?_⟩
  refine (step_seed rfl hd).trans ?_
  rw [Block.afterSeed_idem]
  rfl

end Sys2Proof.Proofs

/-! # The encoding family: command words and the commands they carry (30_encoding.md) -/

namespace Sys2Proof

/-! ## The words that decode -/

theorem Instr.wellFormed_seed {mlen rlen : Nat} :
    (Instr.seed mlen rlen).wellFormed = true ↔ mlen ≤ 256 ∧ rlen ≤ 15 := by
  simp [Instr.wellFormed]

theorem decodeSeed_eq_ok_iff (cmd : CommandWord) (i : Instr) : decodeSeed cmd = .ok i ↔
    cmd.toNat / 2 ^ 17 = 0 ∧ cmd.toNat / 16 % 512 ≤ 256 ∧
      i = .seed (cmd.toNat / 16 % 512) (cmd.toNat / 2 ^ 13 % 16) := by
  rw [← upperReservedField_eq_zero, ← memoryCountField_eq, ← registerCountField_eq]
  unfold decodeSeed
  split_ifs with hupper hmlen
  · exact iff_of_false (by simp) fun h => hupper h.1
  · simp [hmlen]
  · simp [not_not.1 hupper, not_lt.1 hmlen, eq_comm]

theorem decodeOperandless_eq_ok_iff (cmd : CommandWord) (i j : Instr) :
    decodeOperandless j cmd = .ok i ↔ cmd.toNat / 16 = 0 ∧ i = j := by
  rw [← operandlessReservedField_eq_zero]
  unfold decodeOperandless
  split_ifs with hrest
  · exact iff_of_false (by simp) fun h => hrest h.1
  · simp [not_not.1 hrest, eq_comm]

/-- Everything the decoder accepts, by the row of the command table (R74 to R76). -/
theorem decode_eq_ok_iff (cmd : CommandWord) (i : Instr) : decode cmd = .ok i ↔
    (cmd.toNat % 16 = 1 ∧ cmd.toNat / 2 ^ 17 = 0 ∧ cmd.toNat / 16 % 512 ≤ 256 ∧
      i = .seed (cmd.toNat / 16 % 512) (cmd.toNat / 2 ^ 13 % 16)) ∨
    (cmd.toNat % 16 = 2 ∧ cmd.toNat / 16 = 0 ∧ i = .refill) ∨
    (cmd.toNat % 16 = 3 ∧ cmd.toNat / 16 = 0 ∧ i = .nextword) := by
  simp only [← decodeSeed_eq_ok_iff, ← decodeOperandless_eq_ok_iff]
  simp only [decode, opcodeField_eq_one, opcodeField_eq_two, opcodeField_eq_three]
  split_ifs with h1 h2 h3
  · simp [h1]
  · simp [h2]
  · simp [h3]
  · simp [h1, h2, h3]

theorem decode_eq_seed_iff (cmd : CommandWord) (mlen rlen : Nat) : decode cmd = .ok (.seed mlen rlen) ↔
    cmd.toNat % 16 = 1 ∧ cmd.toNat / 2 ^ 17 = 0 ∧ mlen = cmd.toNat / 2 ^ 4 % 2 ^ 9 ∧ rlen = cmd.toNat / 2 ^ 13 % 2 ^ 4 ∧
      mlen ≤ 256 := by
  simp only [decode_eq_ok_iff, Instr.seed.injEq, reduceCtorEq, and_false, or_false]
  omega

/-- The only word below 16 with a given `OPC` is the `OPC` itself. -/
theorem eq_ofNat_iff_opcode (cmd : CommandWord) {k : Nat} (hk : k < 16) :
    cmd = BitVec.ofNat 32 k ↔ cmd.toNat % 16 = k ∧ cmd.toNat / 16 = 0 := by
  rw [← BitVec.toNat_inj, BitVec.toNat_ofNat]
  omega

theorem div_sixteen_ne_zero_of_ne_opcode {cmd : CommandWord} {k : Nat} (hk : k < 16) (hop : cmd.toNat % 16 = k)
    (hne : cmd ≠ BitVec.ofNat 32 k) : cmd.toNat / 16 ≠ 0 :=
  fun hzero => hne ((eq_ofNat_iff_opcode cmd hk).2 ⟨hop, hzero⟩)

theorem decode_eq_refill_iff (cmd : CommandWord) : decode cmd = .ok .refill ↔ cmd = 2 := by
  simp only [decode_eq_ok_iff, reduceCtorEq, and_false, and_true, or_false, false_or]
  exact (eq_ofNat_iff_opcode cmd (by omega)).symm

theorem decode_eq_nextword_iff (cmd : CommandWord) : decode cmd = .ok .nextword ↔ cmd = 3 := by
  simp only [decode_eq_ok_iff, reduceCtorEq, and_false, and_true, false_or]
  exact (eq_ofNat_iff_opcode cmd (by omega)).symm

/-- Under the `OPC` of REFILL or NEXTWORD a nonzero bit above it makes the word illegal (R75, R76). -/
theorem decode_eq_reservedBitSet_of_operandless {cmd : CommandWord} (hop : cmd.toNat % 16 = 2 ∨ cmd.toNat % 16 = 3)
    (hrest : cmd.toNat / 16 ≠ 0) : decode cmd = .error .reservedBitSet := by
  rw [decode_eq]
  obtain hop | hop := hop <;> simp [hop, hrest]

/-! ## Encoding -/

theorem decode_encode_seed {mlen rlen : Nat} (hm : mlen ≤ 256) (hr : rlen ≤ 15) :
    decode (encode (.seed mlen rlen)) = .ok (.seed mlen rlen) := by
  rw [decode_eq_seed_iff, encode_seed_toNat hm hr]
  omega

theorem decode_encode {i : Instr} (h : i.wellFormed = true) : decode (encode i) = .ok i := by
  cases i with
  | seed mlen rlen =>
    obtain ⟨hm, hr⟩ := Instr.wellFormed_seed.1 h
    exact decode_encode_seed hm hr
  | refill => exact (decode_eq_refill_iff _).2 rfl
  | nextword => exact (decode_eq_nextword_iff _).2 rfl

theorem wellFormed_of_decode {cmd : CommandWord} {i : Instr} (h : decode cmd = .ok i) : i.wellFormed = true := by
  cases i with
  | seed mlen rlen =>
    obtain ⟨_, _, _, hr, hm⟩ := (decode_eq_seed_iff _ _ _).1 h
    exact Instr.wellFormed_seed.2 ⟨hm, by omega⟩
  | refill => rfl
  | nextword => rfl

/-- The fields `OPC`, `MLEN` and `RLEN` are the whole of a SEED word: the bits above them are zero. -/
theorem encode_of_decode {cmd : CommandWord} {i : Instr} (h : decode cmd = .ok i) : encode i = cmd := by
  cases i with
  | seed mlen rlen =>
    obtain ⟨hm, hr⟩ := Instr.wellFormed_seed.1 (wellFormed_of_decode h)
    obtain ⟨hop, hupper, hmlen, hrlen, _⟩ := (decode_eq_seed_iff _ _ _).1 h
    rw [← BitVec.toNat_inj, encode_seed_toNat hm hr]
    omega
  | refill => exact ((decode_eq_refill_iff _).1 h).symm
  | nextword => exact ((decode_eq_nextword_iff _).1 h).symm

/-- A table word that is read as a command is the word whose decoding is that command. -/
theorem decode_of_decodeTableWord {nbits word : Nat} {i : Instr} (h : decodeTableWord nbits word = some i) :
    decode (BitVec.ofNat 32 (tableWord nbits word)) = .ok i := by
  unfold decodeTableWord at h
  split at h
  · cases hd : decode (BitVec.ofNat 32 (tableWord nbits word)) with
    | ok j => simpa [hd] using h
    | error e => simp [hd] at h
  · cases h

end Sys2Proof

namespace Sys2Proof.Machine

variable {w : Width}

/-! ## Transactions -/

theorem seedTransaction_of_le {mem regs : List (Word w)} (hm : mem.length ≤ 256) (hr : regs.length ≤ 15) :
    seedTransaction mem regs =
      some { cmd := encode (.seed mem.length regs.length), payload := mem ++ regs } :=
  if_pos ⟨hm, hr⟩

theorem seedTransaction_eq_none {mem regs : List (Word w)} (h : 256 < mem.length ∨ 15 < regs.length) :
    seedTransaction mem regs = none :=
  if_neg (by omega)

theorem seedMemoryWords_append (mem regs : List (Word w)) : seedMemoryWords mem.length (mem ++ regs) = mem :=
  List.take_left

theorem seedRegisterWords_append (mem regs : List (Word w)) :
    seedRegisterWords mem.length regs.length (mem ++ regs) = regs := by
  rw [seedRegisterWords, List.drop_left, List.take_length]

theorem tableTransaction_payload_length {nbits word : Nat} {i : Instr}
    (h : decode (BitVec.ofNat 32 (tableWord nbits word)) = .ok i) :
    (tableTransaction w nbits word).payload.length = expectedPayloadLength i := by
  simp only [tableTransaction, h, List.length_replicate]

theorem State.withFetchWord_takes (s : State) (nbits word : Nat) :
    (s.withFetchWord nbits word).takes (tableTransaction s.width nbits word) := rfl

/-! ## Illegal words -/

/-- `step_illegal` with the answer written out: the block stays, whatever the payload (R77, 60_exceptions.md R201). -/
theorem step_illegal_eq_answered {s : State} {t : Transaction s.width} {e : Illegal} (ht : s.takes t)
    (hd : decode t.cmd = .error e) :
    step s = .next (s.answered s.block { status := .illegalCommand, data := [] }) := by
  rw [step_illegal ht hd, State.raise_eq_answered]

end Sys2Proof.Machine

/-! ## The encoding family settled -/

namespace Sys2Proof.Proofs

open Sys2Proof.Machine

/-- Settles O1: an encoded SEED is its three fields side by side, and REFILL and NEXTWORD have one word each. -/
theorem decodeAfterEncode : Obligations.DecodeAfterEncode :=
  fun _ h => decode_encode h

/-- Settles O2: the accepted words are those whose bits outside the fields are zero. -/
theorem encodeAfterDecode : Obligations.EncodeAfterDecode :=
  fun _ _ h => ⟨wellFormed_of_decode h, encode_of_decode h⟩

/-- Settles O5: a word with one of the two `OPC`s that is not the `OPC` alone has a reserved bit set. -/
theorem operandlessWordsAreExact : Obligations.OperandlessWordsAreExact := by
  refine ⟨decode_eq_refill_iff, decode_eq_nextword_iff, fun s t ht h => ?_⟩
  have hrest : t.cmd.toNat / 16 ≠ 0 := by
    obtain ⟨hop, hne⟩ | ⟨hop, hne⟩ := h
    · exact div_sixteen_ne_zero_of_ne_opcode (by omega) hop hne
    · exact div_sixteen_ne_zero_of_ne_opcode (by omega) hop hne
  have hop : t.cmd.toNat % 16 = 2 ∨ t.cmd.toNat % 16 = 3 := h.imp And.left And.left
  exact ⟨hrest, step_illegal_eq_answered ht (decode_eq_reservedBitSet_of_operandless hop hrest)⟩

/-- Settles O6, by the SEED row of the decoder; the words that exist are the encoded ones. -/
theorem seedFieldsAreCounts : Obligations.SeedFieldsAreCounts :=
  ⟨decode_eq_seed_iff, fun _ hr => ⟨_, decode_encode_seed (Nat.zero_le _) hr⟩,
    ⟨_, decode_encode_seed le_rfl (Nat.zero_le _)⟩⟩

/-- Settles O7: the payload is the two lists in order, and the counts in the word are their lengths. -/
theorem assembledSeedCarriesItsLists : Obligations.AssembledSeedCarriesItsLists := by
  refine fun w mem regs => ⟨fun hm hr => ⟨_, seedTransaction_of_le hm hr, decode_encode_seed hm hr, ?_, ?_, ?_⟩,
    seedTransaction_eq_none⟩
  · exact List.length_append
  · exact seedMemoryWords_append mem regs
  · exact seedRegisterWords_append mem regs

/-- Settles O3: thirteen evaluations of the decoder. -/
theorem commandWordExamples : Obligations.CommandWordExamples := by
  unfold Obligations.CommandWordExamples
  decide

/-- Settles O9: the placed transaction stands at the head of the port. -/
theorem fetchedWordRuns : Obligations.FetchedWordRuns := by
  intro s word i h
  have ht := s.withFetchWord_takes 32 word
  have hd := decode_of_decodeTableWord h
  refine ⟨step_decoded ht hd, ?_⟩
  rw [State.payload_of_takes ht]
  exact tableTransaction_payload_length hd

/-- Settles O10, by the illegal case of a step. -/
theorem illegalWordChangesNothing : Obligations.IllegalWordChangesNothing :=
  fun _ _ _ ht hd => step_illegal_eq_answered ht hd

end Sys2Proof.Proofs


/-! # The word family: the indirection lookup (40_word.md) -/

namespace Sys2Proof.Machine

variable {w : Width}

/-! ## The index is a field of the word (R108)

`MASK_W` is a byte of ones at bit `L`, so masking and then shifting down by `L` keeps the same eight bits as shifting
first and masking with `0xff`. -/

theorem indirectMask_ushiftRight (w : Width) : indirectMask w >>> w.logBytes = 255 := by
  cases w <;> decide

theorem and_indirectMask_ushiftRight (v : Word w) :
    (v &&& indirectMask w) >>> w.logBytes = (v >>> w.logBytes) &&& 255 := by
  rw [BitVec.ushiftRight_and_distrib, indirectMask_ushiftRight]

theorem toNat_and_255 (v : Word w) : (v &&& 255).toNat = v.toNat % 2 ^ 8 := by
  have hmask : (255 : Word w).toNat = 2 ^ 8 - 1 := by cases w <;> decide
  rw [BitVec.toNat_and, hmask, Nat.and_two_pow_sub_one_eq_mod]

theorem indirectIndex_val (v : Word w) : (indirectIndex v).val = v.toNat / 2 ^ w.logBytes % 2 ^ 8 := by
  have hval : (indirectIndex v).val = ((v &&& indirectMask w) >>> w.logBytes).toNat % 2 ^ 8 :=
    BitVec.toNat_setWidth 8 _
  rw [hval, and_indirectMask_ushiftRight, toNat_and_255, Nat.mod_mod, BitVec.toNat_ushiftRight,
    Nat.shiftRight_eq_div_pow]

theorem indirectIndex_ushiftRight_val (v : Word w) (k : Nat) :
    (indirectIndex (v >>> k)).val = v.toNat / 2 ^ (k + w.logBytes) % 2 ^ 8 := by
  rw [indirectIndex_val, BitVec.toNat_ushiftRight, Nat.shiftRight_eq_div_pow, Nat.div_div_eq_div_mul, ← Nat.pow_add]

/-- The rule's other reading, `(v >> L) & 0xff`. -/
theorem indirectIndex_val_eq_and_255 (v : Word w) : (indirectIndex v).val = ((v >>> w.logBytes) &&& 255).toNat := by
  rw [indirectIndex_val, toNat_and_255, BitVec.toNat_ushiftRight, Nat.shiftRight_eq_div_pow]

theorem indirectIndex_val_eq_masked (v : Word w) :
    (indirectIndex v).val = ((v &&& indirectMask w) >>> w.logBytes).toNat := by
  rw [and_indirectMask_ushiftRight, indirectIndex_val_eq_and_255]

theorem indirectIndex_zero (w : Width) : indirectIndex (0 : Word w) = 0 := by
  cases w <;> decide

theorem indirectIndex_allOnes (w : Width) : indirectIndex (BitVec.allOnes w.bits) = 255 := by
  cases w <;> decide

end Sys2Proof.Machine

/-! ## The word family settled -/

namespace Sys2Proof.Proofs

open Sys2Proof.Machine

/-- Settles O33: the index is the eight bits of the word from bit `L` up, and a word shifted down by 8 gives the eight
bits from `8 + L` up. -/
theorem indirectIndexIsAByteOfTheWord : Obligations.IndirectIndexIsAByteOfTheWord :=
  ⟨fun v => ⟨indirectIndex_val v, indirectIndex_ushiftRight_val v 8⟩,
    fun v => ⟨indirectIndex_val v, indirectIndex_ushiftRight_val v 8⟩,
    fun w v => ⟨indirectIndex_val_eq_masked v, indirectIndex_val_eq_and_255 v, indirectIndex_zero w,
      indirectIndex_allOnes w⟩⟩

end Sys2Proof.Proofs

/-! # The seeder family: the seeding equations and the SEED command (41_seeder.md) -/

namespace Sys2Proof.Machine

variable {w : Width}

/-! ## The seeding equations have one solution

The registers before the first group and the words the groups add fix the registers after every group of a pass. The
second pass starts from the registers the first one left and adds what the first one wrote (R124, R125). -/

/-- One pass of 32 groups: `q n` are the registers before group `n`, and group `n` adds the octet `words n` (R123). The
second and the third clause of `SeedRecurrence` are this for the two passes. -/
def SeedPassHolds (words q : Nat → Octet w) : Prop := ∀ g < 32, q (g + 1) = mix w ((q g).add (words g))

theorem SeedPassHolds.unique {words words' q q' : Nat → Octet w} (h : SeedPassHolds words q)
    (h' : SeedPassHolds words' q') (hwords : ∀ g < 32, words g = words' g) (hstart : q 0 = q' 0) {n : Nat}
    (hn : n ≤ 32) : q n = q' n := by
  induction n with
  | zero => exact hstart
  | succ n ih => rw [h n hn, h' n hn, ih (by omega), hwords n hn]

theorem SeedRecurrence.unique {mem : List (Word w)} {start : Octet w} {m m' : Bank w}
    (h : SeedRecurrence mem start m) (h' : SeedRecurrence mem start m') : m = m' := by
  obtain ⟨q, hstart, hfirst, hsecond, hm⟩ := h
  obtain ⟨q', hstart', hfirst', hsecond', hm'⟩ := h'
  have hq : ∀ {n}, n ≤ 32 → q n = q' n :=
    SeedPassHolds.unique hfirst hfirst' (fun _ _ => rfl) (hstart.trans hstart'.symm)
  have hq2 : ∀ {n}, n ≤ 32 → q (32 + n) = q' (32 + n) :=
    SeedPassHolds.unique (q := fun g => q (32 + g)) (q' := fun g => q' (32 + g)) hsecond hsecond'
      (fun _ hg => hq hg) (hq le_rfl)
  refine Bank.ext fun i => ?_
  obtain ⟨g, k, rfl⟩ := exists_groupIndex i
  rw [hm, hm']
  exact congrArg (Octet.get · k) (hq2 (n := g.val + 1) (by omega))

/-! ## Seeds with one result -/

theorem getD_eq_zero_of_forall_mem {words : List (Word w)} (h : ∀ x ∈ words, x = 0) (k : Nat) :
    words.getD k 0 = 0 := by
  rw [List.eq_replicate_of_mem h, List.getD_eq_getElem?_getD, List.getElem?_getD_replicate_default_eq]

/-- Zero-filling makes a list of seed words count only by what it reads as (R121). -/
theorem Bank.ofPrefix_congr {mem mem' : List (Word w)} (h : ∀ k, mem.getD k 0 = mem'.getD k 0) :
    Bank.ofPrefix mem = Bank.ofPrefix mem' :=
  Bank.ext fun i => by rw [Bank.read_ofPrefix, Bank.read_ofPrefix, h]

/-- Zero words at the end of a seed are the ones zero-filling would put there. -/
theorem Bank.ofPrefix_append_zeros (mem : List (Word w)) (zeros : Nat) :
    Bank.ofPrefix (mem ++ List.replicate zeros 0) = Bank.ofPrefix mem := by
  refine Bank.ofPrefix_congr fun k => ?_
  by_cases hk : k < mem.length
  · exact List.getD_append _ _ _ _ hk
  · rw [List.getD_append_right _ _ _ _ (by omega), List.getD_eq_default mem _ (by omega),
      getD_eq_zero_of_forall_mem fun _ hx => List.eq_of_mem_replicate hx]

/-- SEED leaves the same block of two seeds that start both passes alike. -/
theorem Block.seed_congr (s : Block w) {mem mem' : List (Word w)} {regs regs' : Option (Octet w)}
    (hmem : Bank.ofPrefix mem = Bank.ofPrefix mem')
    (hregs : regs.getD (defaultOctet w) = regs'.getD (defaultOctet w)) : s.seed mem regs = s.seed mem' regs' := by
  have hm : seedMemory w mem regs = seedMemory w mem' regs' := by unfold seedMemory; rw [hmem, hregs]
  unfold Block.seed
  rw [hm]

/-! ## The registers a payload supplies (R122) -/

/-- The octet SEED starts from, its words counted from the beginning of the payload. -/
theorem suppliedOctet_getD (mlen rlen : Nat) (payload : List (Word w)) (d : Octet w) :
    (suppliedOctet mlen rlen payload).getD d =
      if rlen = 8 then Octet.ofFn fun k => payload.getD (mlen + k.val) 0 else d := by
  unfold suppliedOctet
  split
  · next h8 =>
    rw [Option.getD_some, Octet.ofWords]
    refine congrArg Octet.ofFn (funext fun k => ?_)
    have hk : k.val < rlen := by omega
    simp [seedRegisterWords, List.getD_eq_getElem?_getD, hk]
  · rfl

theorem suppliedOctet_append (mem regs : List (Word w)) :
    suppliedOctet mem.length regs.length (mem ++ regs) =
      if regs.length = 8 then some (Octet.ofWords regs) else none := by
  rw [suppliedOctet, seedRegisterWords_append]

@[simp] theorem Octet.ofWords_ofFn_get (q : Octet w) : Octet.ofWords (List.ofFn q.get) = q :=
  Octet.ext_get fun k => by
    rw [Octet.ofWords, Octet.get_ofFn, List.getD_eq_getElem _ _ (by simp), List.getElem_ofFn]

/-! ## The zero seed (R131) -/

/-- Without a word to add, the zero octet stays zero through both passes. -/
theorem SeedRecurrence.zero {mem : List (Word w)} (hmem : ∀ x ∈ mem, x = 0) :
    SeedRecurrence mem (Octet.replicate 0) (Bank.fill 0) := by
  have hwords (g : Nat) : seedGroupWords mem g = Octet.replicate 0 := Octet.ext_get fun k => by
    rw [seedGroupWords, Octet.get_ofFn, Octet.get_replicate, getD_eq_zero_of_forall_mem hmem]
  have hmix : Octet.replicate 0 = mix w ((Octet.replicate 0).add (Octet.replicate 0)) := by
    rw [Octet.add_replicate_zero, mix_zero]
  refine ⟨fun _ => Octet.replicate 0, rfl, fun g _ => ?_, fun _ _ => hmix, fun g k => ?_⟩
  · rw [hwords]
    exact hmix
  · rw [Bank.read_fill, Octet.get_replicate]

/-! ## SEED and NEXTWORD -/

/-- A SEED turned away answers its status and changes nothing (R120, 60_exceptions.md R201). -/
theorem exec_seed_of_status_ne_ok {mlen rlen : Nat} {s : State} {st : Status}
    (h : seedStatus mlen rlen s.payload.length = st) (hst : st ≠ .ok) :
    exec (.seed mlen rlen) s = .next (s.answered s.block { status := st, data := [] }) := by
  rw [exec_seed_eq, h, State.finish_eq_answered, if_neg hst, ite_self]

/-- A SEED at the head of the port whose payload is its two lists completes (30_encoding.md R80). -/
theorem exec_seed_of_lists {mlen rlen : Nat} {mem regs payload : List (Word w)} (b : Block w) (cmd : CommandWord)
    (rest : List (HostInput w)) (rs : List (Response w)) (n : Nat) (hp : payload = mem ++ regs)
    (hm : mem.length = mlen) (hl : regs.length = rlen) (hr : rlen = 0 ∨ rlen = 8) :
    exec (.seed mlen rlen) ⟨w, b, ⟨.command ⟨cmd, payload⟩ :: rest, rs⟩, n⟩ =
      .next ⟨w, b.seed mem (if rlen = 8 then some (Octet.ofWords regs) else none), ⟨rest, rs ++ [⟨.ok, []⟩]⟩, n⟩ := by
  subst hp hm hl
  rw [exec_seed_of_payload hr List.length_append, State.payload_mk, Port.payload_command, seedMemoryWords_append,
    suppliedOctet_append]
  rfl

/-- An assembled SEED decodes to its lists' lengths, since neither list is longer than its
field (30_encoding.md R84). -/
theorem seedTransaction_eq_some {mem regs : List (Word w)} {t : Transaction w} (h : seedTransaction mem regs = some t) :
    decode t.cmd = .ok (.seed mem.length regs.length) ∧ t.payload = mem ++ regs := by
  unfold seedTransaction at h
  split at h
  · next hle =>
    obtain ⟨hm, hr⟩ := hle
    cases h
    exact ⟨decode_encode_seed hm hr, rfl⟩
  · cases h

theorem Block.serve_of_empty {s : Block w} (h : s.ridx.val = 256) : s.serve = { s.refill with ridx := 1 } := by
  rw [Block.serve, Block.refillIfExhausted_of_eq h, Block.advance, Block.refill_ridx]
  rfl

theorem Block.servedWord_of_empty {s : Block w} (h : s.ridx.val = 256) : s.servedWord = s.refill.r.read 0 := by
  rw [Block.servedWord, Block.refillIfExhausted_of_eq h, Block.cursorWord, Block.refill_ridx]
  rfl

/-- A NEXTWORD at the head of the port, with nothing buffered, serves the first word of a refill (R190). -/
theorem step_nextword_of_empty {b : Block w} (rest : List (HostInput w)) (rs : List (Response w)) (n : Nat)
    (h : b.ridx.val = 256) :
    step ⟨w, b, ⟨.command (plainTransaction .nextword) :: rest, rs⟩, n⟩ =
      .next ⟨w, { b.refill with ridx := 1 }, ⟨rest, rs ++ [⟨.ok, [b.refill.r.read 0]⟩]⟩, n⟩ := by
  rw [step_decoded (t := plainTransaction .nextword) rfl decode_plain_nextword, exec_nextword_of_payload rfl,
    Block.serve_of_empty h, Block.servedWord_of_empty h]
  rfl

end Sys2Proof.Machine

/-! ## The seeder family settled -/

namespace Sys2Proof.Proofs

open Sys2Proof.Machine

/-- Settles O23: SEED computes a solution of the seeding equations for the words its payload supplies. -/
theorem seedLeavesTheRecurrence : Obligations.SeedLeavesTheRecurrence := by
  intro mlen rlen s hr hl
  refine ⟨_, exec_seed_of_payload hr hl, ?_, rfl, rfl, rfl, rfl, rfl⟩
  rw [← suppliedOctet_getD]
  exact seedMemory_recurrence _ _ _

/-- Settles O24, by an induction over the groups of each pass. -/
theorem seedRecurrenceHasOneSolution : Obligations.SeedRecurrenceHasOneSolution :=
  fun _ _ _ _ _ h h' => h.unique h'

/-- Settles O28: zero words are what zero-filling puts, and the default octet is what absent registers stand for. -/
theorem equivalentSeeds : Obligations.EquivalentSeeds := by
  intro w b cmd rest rs n mem zeros _
  have hzeros : b.seed mem none = b.seed (mem ++ List.replicate zeros 0) none :=
    b.seed_congr (Bank.ofPrefix_append_zeros mem zeros).symm rfl
  have hregs : b.seed mem none = b.seed mem (some (Octet.ofWords (List.ofFn (defaultOctet w).get))) := by
    rw [Octet.ofWords_ofFn_get]
    exact b.seed_congr rfl rfl
  refine ⟨b.seed mem none, ?_, ?_, ?_, ?_⟩
  · exact exec_seed_of_lists b cmd rest rs n (List.append_nil mem).symm rfl rfl (.inl rfl)
  · rw [hzeros]
    exact exec_seed_of_lists b cmd rest rs n (List.append_nil _).symm (by simp) rfl (.inl rfl)
  · rw [hregs]
    exact exec_seed_of_lists b cmd rest rs n rfl rfl List.length_ofFn (.inr rfl)
  · rintro rfl
    exact ⟨by simp, rfl, rfl, rfl, rfl⟩

/-- Settles O29: the zero memory solves the equations of the zero seed, and they have one solution. -/
theorem zeroSeedStaysZero : Obligations.ZeroSeedStaysZero := by
  intro mlen s hl hzero
  obtain ⟨b, hexec, hrec, -⟩ := seedLeavesTheRecurrence mlen 8 s (.inr rfl) hl
  have hstart : (Octet.ofFn fun k => s.payload.getD (mlen + k.val) 0) = Octet.replicate 0 := Octet.ext_get fun k => by
    rw [Octet.get_ofFn, Octet.get_replicate, getD_eq_zero_of_forall_mem hzero]
  rw [if_pos rfl, hstart] at hrec
  have hm : b.m = Bank.fill 0 := hrec.unique (.zero fun x hx => hzero x (List.mem_of_mem_take hx))
  exact ⟨b, hexec, fun i => by rw [hm, Bank.read_fill]⟩

/-- Settles O46: SEED leaves nothing buffered, so the NEXTWORD refills first. -/
theorem nextwordAfterSeed : Obligations.NextwordAfterSeed := by
  intro w b mem regs t rest rs n hr ht
  obtain ⟨hd, hpayload⟩ := seedTransaction_eq_some ht
  obtain ⟨cmd, payload⟩ := t
  subst hpayload
  refine ⟨b.seed mem (if regs.length = 8 then some (Octet.ofWords regs) else none), _, ?_, rfl, rfl, rfl,
    Block.refill_refillsTo _, ?_⟩
  · split
    · exact seedMemory_recurrence w mem (some _)
    · exact seedMemory_recurrence w mem none
  · rw [run_succ_of_step ((step_decoded rfl hd).trans (exec_seed_of_lists b cmd _ rs n rfl rfl rfl hr)),
      run_succ_of_step (step_nextword_of_empty rest _ n rfl), List.append_assoc]
    rfl

/-- Settles O25: the length is checked before the register count, and either error leaves the block. -/
theorem seedTurnedAway : Obligations.SeedTurnedAway :=
  fun _ _ _ => ⟨fun hl => exec_seed_of_status_ne_ok (seedStatus_mismatch hl) (by decide),
    fun hl h0 h8 => exec_seed_of_status_ne_ok (seedStatus_invalid hl h0 h8) (by decide)⟩

end Sys2Proof.Proofs

/-! # The Mixer family (42_mixer.md) -/

namespace Sys2Proof.Machine

variable {w : Width}

/-! ## The written-out Mixers are the generic stages (R140, R141) -/

theorem mix32_eq_foldl_genericStage32 (q : Octet .w32) : mix .w32 q = (List.finRange 8).foldl genericStage32 q := rfl

theorem mix64_eq_foldl_genericStage64 (q : Octet .w64) : mix .w64 q = (List.finRange 8).foldl genericStage64 q := rfl

/-! ## Every statement can be undone (R143)

A stage is three statements, each of which rewrites one register by the value of another one: `x ^= f(y)`, `x += y` or
`x -= y`. Given `y`, which the statement leaves as it is, each of the three is a bijection in `x`. -/

/-- `q[i] <- f(q[j], q[i])`, one statement of a Mixer's list. -/
def Octet.update (f : Word w → Word w → Word w) (i j : Fin 8) (q : Octet w) : Octet w :=
  q.set i (f (q.get j) (q.get i))

theorem Octet.get_update_same (f : Word w → Word w → Word w) (i j : Fin 8) (q : Octet w) :
    (q.update f i j).get i = f (q.get j) (q.get i) := by
  rw [Octet.update, Octet.get_set, if_pos rfl]

theorem Octet.get_update_other (f : Word w → Word w → Word w) {i k : Fin 8} (j : Fin 8) (q : Octet w) (h : k ≠ i) :
    (q.update f i j).get k = q.get k := by
  rw [Octet.update, Octet.get_set, if_neg h]

theorem Octet.update_injective {f : Word w → Word w → Word w} {i j : Fin 8} (hij : j ≠ i)
    (hf : ∀ y, Function.Injective (f y)) : Function.Injective (Octet.update f i j) := by
  intro p q h
  have hother (k : Fin 8) (hk : k ≠ i) : p.get k = q.get k := by
    rw [← Octet.get_update_other f j p hk, h, Octet.get_update_other f j q hk]
  refine Octet.ext_get fun k => ?_
  by_cases hk : k = i
  · subst hk
    apply hf (q.get j)
    rw [← Octet.get_update_same f k j q, ← h, Octet.get_update_same, hother j hij]
  · exact hother k hk

theorem Octet.update_surjective {f : Word w → Word w → Word w} {i j : Fin 8} (hij : j ≠ i)
    (hf : ∀ y, Function.Surjective (f y)) : Function.Surjective (Octet.update f i j) := by
  intro p
  obtain ⟨x, hx⟩ := hf (p.get j) (p.get i)
  refine ⟨p.set i x, Octet.ext_get fun k => ?_⟩
  by_cases hk : k = i
  · subst hk
    rw [Octet.get_update_same, Octet.get_set, Octet.get_set, if_neg hij, if_pos rfl, hx]
  · rw [Octet.get_update_other f j _ hk, Octet.get_set, if_neg hk]

/-- A statement is undone by undoing its operation, since it leaves the operand it reads. -/
theorem Octet.update_bijective {f : Word w → Word w → Word w} {i j : Fin 8} (hij : j ≠ i)
    (hf : ∀ y, Function.Bijective (f y)) : Function.Bijective (Octet.update f i j) :=
  ⟨Octet.update_injective hij fun y => (hf y).injective, Octet.update_surjective hij fun y => (hf y).surjective⟩

theorem xor_right_bijective (y : Word w) : Function.Bijective (· ^^^ y) :=
  Function.Involutive.bijective fun x => by rw [BitVec.xor_assoc, BitVec.xor_self, BitVec.xor_zero]

/-- `x ^= f(y)`. -/
theorem Octet.update_xor_bijective (f : Word w → Word w) {i j : Fin 8} (h : j ≠ i) :
    Function.Bijective (Octet.update (fun y x => x ^^^ f y) i j) :=
  Octet.update_bijective h fun y => xor_right_bijective (f y)

/-- `x += y`. -/
theorem Octet.update_add_bijective {i j : Fin 8} (h : j ≠ i) :
    Function.Bijective (Octet.update (w := w) (fun y x => x + y) i j) :=
  Octet.update_bijective h fun y => (Equiv.addRight y).bijective

/-- `x -= y`. -/
theorem Octet.update_sub_bijective {i j : Fin 8} (h : j ≠ i) :
    Function.Bijective (Octet.update (w := w) (fun y x => x - y) i j) :=
  Octet.update_bijective h fun y => (Equiv.subRight y).bijective

theorem genericStage32_bijective (t : Fin 8) : Function.Bijective (genericStage32 · t) := by
  have hxor := Octet.update_xor_bijective (w := .w32) (i := t) (j := t + 1)
    (fun y => if t.val % 2 = 0 then y <<< mixShift32 t else y >>> mixShift32 t) (by omega)
  have hadd3 := Octet.update_add_bijective (w := .w32) (i := t + 3) (j := t) (by omega)
  have hadd1 := Octet.update_add_bijective (w := .w32) (i := t + 1) (j := t + 2) (by omega)
  exact (hadd1.comp hadd3).comp hxor

theorem genericStage64_bijective (t : Fin 8) : Function.Bijective (genericStage64 · t) := by
  have hsub := Octet.update_sub_bijective (w := .w64) (i := t) (j := t + 4) (by omega)
  have hxor := Octet.update_xor_bijective (w := .w64) (i := t + 5) (j := t + 7)
    (fun y => if t.val % 2 = 0 then y >>> mixShift64 t else y <<< mixShift64 t) (by omega)
  have hadd := Octet.update_add_bijective (w := .w64) (i := t + 7) (j := t) (by omega)
  exact (hadd.comp hxor).comp hsub

/-- Bijective stages run in order are a bijection. -/
theorem foldl_bijective {σ ι : Type} {stage : σ → ι → σ} (h : ∀ t, Function.Bijective (stage · t)) (ts : List ι) :
    Function.Bijective fun q => ts.foldl stage q := by
  induction ts with
  | nil => exact Function.bijective_id
  | cons t ts ih => exact ih.comp (h t)

/-! ## What one application does not reach

A new value of `q[7]` passes through stages 0 to 4 of `MIX_32` without reaching another register, and one of `q[3]`
through stages 0 to 2 of `MIX_64`. The outputs below are given by the registers at that point. -/

/-- Stages 0 to 4 of `MIX_32`. -/
def mix32Head (q : Octet .w32) : Octet .w32 :=
  mix32Stage4 (mix32Stage3 (mix32Stage2 (mix32Stage1 (mix32Stage0 q))))

/-- Of stages 0 to 4 only `h += e` in stage 4 names `h`. -/
theorem mix32Head_with_h (q : Octet .w32) (x : Word .w32) :
    mix32Head { q with h := x } = { mix32Head q with h := x + (mix32Head q).e } := rfl

theorem mix32_d (q : Octet .w32) : (mix .w32 q).d = (mix32Head q).d := rfl

theorem mix32_e (q : Octet .w32) : (mix .w32 q).e = (mix32Head q).e := rfl

/-- `f ^= g >> 4` in stage 5 comes before `g += h`. -/
theorem mix32_f (q : Octet .w32) : (mix .w32 q).f = (mix32Head q).f ^^^ ((mix32Head q).g >>> 4) := rfl

/-- Stages 0 to 2 of `MIX_64`. -/
def mix64Head (q : Octet .w64) : Octet .w64 := mix64Stage2 (mix64Stage1 (mix64Stage0 q))

/-- No statement of stages 0 to 2 names `d`. -/
theorem mix64Head_with_d (q : Octet .w64) (x : Word .w64) : mix64Head { q with d := x } = { mix64Head q with d := x } :=
  rfl

/-- `a ^= c << 15` in stage 3 is the last statement that writes `a`, and comes before `c += d`. -/
theorem mix64_a (q : Octet .w64) : (mix .w64 q).a = (mix64Head q).a ^^^ ((mix64Head q).c <<< 15) := rfl

/-- `b ^= d >> 14` in stage 4 is the last statement that writes `b`, and comes after `d -= h`. -/
theorem mix64_b (q : Octet .w64) :
    (mix .w64 q).b = (mix64Head q).b ^^^ (((mix64Head q).d - (mix64Head q).h) >>> 14) := rfl

/-- `d` reaches `b` through bits 14 and up of `d - h`. -/
theorem mix64_b_with_d (q : Octet .w64) (x : Word .w64) :
    (mix .w64 { q with d := x }).b = (mix64Head q).b ^^^ ((x - (mix64Head q).h) >>> 14) := by
  rw [mix64_b, mix64Head_with_d]

end Sys2Proof.Machine

/-! ## The Mixer family settled -/

namespace Sys2Proof.Proofs

open Sys2Proof.Machine

/-- Settles O31: the eight generic stages compute to the eight written-out ones. -/
theorem mixerMatchesGenericForm : Obligations.MixerMatchesGenericForm :=
  ⟨mix32_eq_foldl_genericStage32, mix64_eq_foldl_genericStage64⟩

/-- Settles O30: a Mixer is its generic stages run in order, and each of their statements can be undone. -/
theorem mixerIsBijective : Obligations.MixerIsBijective := by
  intro w
  cases w with
  | w32 =>
    rw [funext mix32_eq_foldl_genericStage32]
    exact foldl_bijective genericStage32_bijective _
  | w64 =>
    rw [funext mix64_eq_foldl_genericStage64]
    exact foldl_bijective genericStage64_bijective _

/-- Settles O32. On the zero octet bit 0 of `d` is shifted out on its way to `b`. With `h = 1` besides, `d -= h` borrows
through every bit of `d` when bit 0 is clear, and through none when it is set. -/
theorem mixerReachIsLimited : Obligations.MixerReachIsLimited := by
  refine ⟨fun q x => ?_, fun q x => ?_, ⟨Octet.replicate 0, ?_⟩, ⟨{ Octet.replicate 0 with h := 1 }, ?_⟩⟩
  · simp only [mix32_d, mix32_e, mix32_f, mix32Head_with_h, and_self]
  · rw [mix64_a, mix64_a, mix64Head_with_d]
  · rw [mix64_b_with_d, mix64_b]
    decide
  · rw [mix64_b_with_d, mix64_b]
    decide

end Sys2Proof.Proofs

/-! # The refiller family: the a-updates, REFILL, and the NEXTWORD after it (43_refiller.md) -/

namespace Sys2Proof.Machine

variable {w : Width}

/-! ## A word and its own shift, by the arithmetic of 00_scope.md R10 -/

theorem toNat_xor_shiftLeft {n : Nat} (a : BitVec n) (k : Nat) :
    (a ^^^ (a <<< k)).toNat = a.toNat ^^^ (a.toNat * 2 ^ k % 2 ^ n) := by
  rw [BitVec.toNat_xor, BitVec.toNat_shiftLeft, Nat.shiftLeft_eq]

theorem toNat_xor_ushiftRight {n : Nat} (a : BitVec n) (k : Nat) :
    (a ^^^ (a >>> k)).toNat = a.toNat ^^^ (a.toNat / 2 ^ k) := by
  rw [BitVec.toNat_xor, BitVec.toNat_ushiftRight, Nat.shiftRight_eq_div_pow]

/-! ## Commands without operands turn a payload away (R160, 44_extractor.md R190) -/

theorem refillStatus_mismatch {len : Nat} (h : len ≠ 0) : refillStatus len = .payloadLengthMismatch := if_pos h

theorem nextwordStatus_mismatch {len : Nat} (h : len ≠ 0) : nextwordStatus len = .payloadLengthMismatch := if_pos h

theorem exec_refill_of_payload_ne_nil {s : State} (h : s.payload ≠ []) :
    exec .refill s = .next (s.answered s.block { status := .payloadLengthMismatch, data := [] }) := by
  rw [exec_refill_eq, refillStatus_mismatch fun hl => h (List.length_eq_zero_iff.mp hl)]
  rfl

theorem exec_nextword_of_payload_ne_nil {s : State} (h : s.payload ≠ []) :
    exec .nextword s = .next (s.answered s.block { status := .payloadLengthMismatch, data := [] }) := by
  rw [exec_nextword_eq, nextwordStatus_mismatch fun hl => h (List.length_eq_zero_iff.mp hl)]
  rfl

/-! ## NEXTWORD with words buffered, the cursor at `k` (44_extractor.md R191) -/

theorem Block.serve_of_buffered {s : Block w} {k : Fin 256} (h : s.ridx = k.castSucc) :
    s.serve = { s with ridx := k.succ } := by
  have hlt : s.ridx.val < 256 := by rw [h]; exact k.isLt
  have hcursor : s.ridx + 1 = k.succ := by rw [h, Fin.coeSucc_eq_succ]
  rw [Block.serve, Block.refillIfExhausted_of_lt hlt, Block.advance, hcursor]

theorem Block.servedWord_of_buffered {s : Block w} {k : Fin 256} (h : s.ridx = k.castSucc) :
    s.servedWord = s.r.read k := by
  have hlt : s.ridx.val < 256 := by rw [h]; exact k.isLt
  have hindex : Fin.ofNat 256 s.ridx.val = k := by rw [h]; exact Fin.ext (Nat.mod_eq_of_lt k.isLt)
  rw [Block.servedWord, Block.refillIfExhausted_of_lt hlt, Block.cursorWord, hindex]

/-! ## The assembler's REFILL and NEXTWORD at the head of the port -/

theorem step_refill (b : Block w) (rest : List (HostInput w)) (rs : List (Response w)) (n : Nat) :
    step ⟨w, b, ⟨.command (plainTransaction .refill) :: rest, rs⟩, n⟩ =
      .next ⟨w, b.refill, ⟨rest, rs ++ [⟨.ok, b.refill.r.toList⟩]⟩, n⟩ := by
  rw [step_decoded (t := plainTransaction .refill) rfl decode_plain_refill, exec_refill_of_payload rfl]
  rfl

theorem step_nextword_of_buffered {b : Block w} {k : Fin 256} (rest : List (HostInput w)) (rs : List (Response w))
    (n : Nat) (h : b.ridx = k.castSucc) :
    step ⟨w, b, ⟨.command (plainTransaction .nextword) :: rest, rs⟩, n⟩ =
      .next ⟨w, { b with ridx := k.succ }, ⟨rest, rs ++ [⟨.ok, [b.r.read k]⟩]⟩, n⟩ := by
  rw [step_decoded (t := plainTransaction .nextword) rfl decode_plain_nextword, exec_nextword_of_payload rfl,
    Block.serve_of_buffered h, Block.servedWord_of_buffered h]
  rfl

/-- A refill leaves its whole block buffered, so the NEXTWORD behind it serves the first word (R167). -/
theorem step_nextword_of_refilled (b : Block w) (rest : List (HostInput w)) (rs : List (Response w)) (n : Nat) :
    step ⟨w, b.refill, ⟨.command (plainTransaction .nextword) :: rest, rs⟩, n⟩ =
      .next ⟨w, { b.refill with ridx := 1 }, ⟨rest, rs ++ [⟨.ok, [b.refill.r.read 0]⟩]⟩, n⟩ :=
  step_nextword_of_buffered (k := 0) rest rs n b.refill_ridx

end Sys2Proof.Machine

/-! ## The refiller family settled -/

namespace Sys2Proof.Proofs

open Sys2Proof.Machine

/-- Settles O35: REFILL answers with the refilled block, which meets the refill equations. -/
theorem refillFollowsTheRecurrence : Obligations.RefillFollowsTheRecurrence :=
  fun s hp => ⟨_, exec_refill_of_payload hp, s.block.refill_refillsTo, Bank.length_toList _⟩

/-- Settles O45: the REFILL leaves the cursor at 0, so the NEXTWORD serves `r[0]` without a second refill. -/
theorem nextwordAfterRefill : Obligations.NextwordAfterRefill := by
  intro w b rest rs n
  refine ⟨b.refill, b.refill_refillsTo, ?_⟩
  rw [run_succ_of_step (step_refill b _ rs n), run_succ_of_step (step_nextword_of_refilled b rest _ n),
    List.append_assoc]
  rfl

/-- Settles O34: each selector XORs the word with one shift of itself; at 64 bits selector 0 complements the result. -/
theorem aUpdateByArithmetic : Obligations.AUpdateByArithmetic := by
  refine ⟨fun a => ⟨?_, ?_, ?_, ?_⟩, fun a => ⟨?_, ?_, ?_, ?_⟩⟩
  · exact toNat_xor_shiftLeft a 13
  · exact toNat_xor_ushiftRight a 6
  · exact toNat_xor_shiftLeft a 2
  · exact toNat_xor_ushiftRight a 16
  · exact (BitVec.toNat_not ..).trans (congrArg (2 ^ 64 - 1 - ·) (toNat_xor_shiftLeft a 21))
  · exact toNat_xor_ushiftRight a 5
  · exact toNat_xor_shiftLeft a 12
  · exact toNat_xor_ushiftRight a 33

/-- Settles O39: an operandless command expects no payload word, and the mismatch leaves the block. -/
theorem operandlessCommandsRefuseAPayload : Obligations.OperandlessCommandsRefuseAPayload :=
  fun _ hp => ⟨exec_refill_of_payload_ne_nil hp, exec_nextword_of_payload_ne_nil hp⟩

end Sys2Proof.Proofs

/-! # The extractor family: NEXTWORD along a block and from block to block (44_extractor.md) -/

namespace Sys2Proof.Machine

variable {w : Width}

/-! ## One run behind another -/

/-- A run goes on from the state its first `j` steps leave. -/
theorem run_add_of_run {j k : Nat} {s s' : State} (h : Sys2Proof.core.run j s = .next s') :
    Sys2Proof.core.run (j + k) s = Sys2Proof.core.run k s' := by
  induction j generalizing s with
  | zero =>
    cases h
    rw [Nat.zero_add]
  | succ j ih =>
    cases hs : step s with
    | next u =>
      rw [run_succ_of_step hs] at h
      rw [Nat.succ_add, run_succ_of_step hs, ih h]
    | fault r => cases r
    | refused r =>
      have hstuck : Sys2Proof.core.step s = .refused r := hs
      simp only [Host.Core.run, hstuck] at h
      cases h

theorem nextwords_succ (w : Width) (n : Nat) :
    nextwords w (n + 1) = .command (plainTransaction .nextword) :: nextwords w n := rfl

theorem nextwords_add (w : Width) (j k : Nat) : nextwords w (j + k) = nextwords w j ++ nextwords w k :=
  List.replicate_add ..

/-! ## Along one block (R191, R192) -/

/-- The response of a NEXTWORD that returns `x`. -/
def wordResponse (x : Word w) : Response w := { status := .ok, data := [x] }

theorem Bank.drop_eq_read_cons (r : Bank w) (i : Fin 256) :
    r.toList.drop i.val = r.read i :: r.toList.drop (i.val + 1) := by
  rw [List.drop_eq_getElem_cons (by simp), Vector.getElem_toList]
  rfl

/-- As many NEXTWORDs as words are buffered return them in index order and empty the buffer. -/
theorem run_nextwords_of_buffered {j : Nat} {b : Block w} (rest : List (HostInput w)) (rs : List (Response w)) (n : Nat)
    (h : b.ridx.val + j = 256) :
    Sys2Proof.core.run j ⟨w, b, ⟨nextwords w j ++ rest, rs⟩, n⟩ =
      .next ⟨w, { b with ridx := 256 }, ⟨rest, rs ++ (b.r.toList.drop b.ridx.val).map wordResponse⟩, n⟩ := by
  induction j generalizing b rs with
  | zero =>
    have hempty : b.ridx = 256 := Fin.ext h
    have hnone : b.r.toList.drop b.ridx.val = [] := List.drop_eq_nil_of_le (by simp [hempty])
    rw [hnone, List.map_nil, List.append_nil, ← hempty]
    rfl
  | succ j ih =>
    have hlt : b.ridx.val < 256 := by omega
    have hstep := step_nextword_of_buffered (k := ⟨b.ridx.val, hlt⟩) (nextwords w j ++ rest) rs n rfl
    have hrest := ih (b := { b with ridx := Fin.succ ⟨b.ridx.val, hlt⟩ }) (rs ++ [⟨.ok, [b.r.read ⟨b.ridx.val, hlt⟩]⟩])
      (by simp only [Fin.val_succ]; omega)
    rw [nextwords_succ, List.cons_append, run_succ_of_step hstep, hrest, Bank.drop_eq_read_cons b.r ⟨_, hlt⟩,
      List.append_assoc]
    rfl

/-- From an empty buffer NEXTWORD does what it does right after a REFILL, so 256 of them return the refilled block
(R192). -/
theorem run_nextwords_of_empty {b : Block w} (rest : List (HostInput w)) (rs : List (Response w)) (n : Nat)
    (h : b.ridx.val = 256) :
    Sys2Proof.core.run 256 ⟨w, b, ⟨nextwords w 256 ++ rest, rs⟩, n⟩ =
      .next ⟨w, { b.refill with ridx := 256 }, ⟨rest, rs ++ b.refill.r.toList.map wordResponse⟩, n⟩ := by
  have hrefilled := run_nextwords_of_buffered (j := 256) (b := b.refill) rest rs n (by rw [Block.refill_ridx]; rfl)
  rw [Block.refill_ridx, nextwords_succ w 255, List.cons_append,
    run_succ_of_step (step_nextword_of_refilled b _ rs n)] at hrefilled
  rw [nextwords_succ w 255, List.cons_append, run_succ_of_step (step_nextword_of_empty _ rs n h)]
  exact hrefilled

/-! ## From block to block (R193) -/

/-- The words of the first `k` blocks from `b` on, each block the refill of the one before. -/
def Block.outputStream (b : Block w) : Nat → List (Word w)
  | 0 => []
  | k + 1 => b.outputStream k ++ (Block.refill^[k + 1] b).r.toList

theorem Block.length_outputStream (b : Block w) (k : Nat) : (b.outputStream k).length = 256 * k := by
  induction k with
  | zero => rfl
  | succ k ih => rw [Block.outputStream, List.length_append, ih, Bank.length_toList, Nat.mul_succ]

/-- Every refill counts one block (R161). -/
theorem Block.iterate_refill_c (b : Block w) (k : Nat) : (Block.refill^[k] b).c = b.c + BitVec.ofNat w.bits k := by
  induction k with
  | zero => exact (BitVec.add_zero b.c).symm
  | succ k ih =>
    rw [Function.iterate_succ_apply', Block.refill_c, ih, BitVec.ofNat_add, ← BitVec.add_assoc]
    rfl

theorem Block.iterate_refill_refillsTo (b : Block w) (k : Nat) :
    (Block.refill^[k] b).RefillsTo (Block.refill^[k + 1] b) := by
  rw [Function.iterate_succ_apply']
  exact Block.refill_refillsTo _

/-- A refill does not look at the cursor, so it does not matter whether a block has been read out before it. -/
theorem Block.refill_of_cursor (b : Block w) (i : Fin 257) : Block.refill { b with ridx := i } = b.refill :=
  Block.refill_congr rfl rfl rfl rfl

/-- From an empty buffer `256 k` NEXTWORDs return the words of `k` blocks and leave the last one read out. -/
theorem run_nextwords_of_blocks {b : Block w} (rest : List (HostInput w)) (rs : List (Response w)) (n k : Nat)
    (h : b.ridx.val = 256) :
    Sys2Proof.core.run (256 * k) ⟨w, b, ⟨nextwords w (256 * k) ++ rest, rs⟩, n⟩ =
      .next ⟨w, { Block.refill^[k] b with ridx := 256 }, ⟨rest, rs ++ (b.outputStream k).map wordResponse⟩, n⟩ := by
  induction k generalizing rest with
  | zero =>
    have hempty : b.ridx = 256 := Fin.ext h
    have hnone : rs ++ (b.outputStream 0).map wordResponse = rs := List.append_nil rs
    rw [hnone, Function.iterate_zero_apply, ← hempty]
    rfl
  | succ k ih =>
    rw [Nat.mul_succ, nextwords_add, List.append_assoc, run_add_of_run (ih _), run_nextwords_of_empty rest _ n rfl,
      Block.refill_of_cursor, ← Function.iterate_succ_apply' Block.refill, Block.outputStream, List.map_append,
      List.append_assoc]

end Sys2Proof.Machine

/-! ## The extractor family settled -/

namespace Sys2Proof.Proofs

open Sys2Proof.Machine

/-- Settles O40: a cursor below 256 stands before a buffered word, which is served without a refill. -/
theorem nextwordServesTheCursor : Obligations.NextwordServesTheCursor := by
  intro s h hp
  have hcursor : s.block.ridx = Fin.castSucc ⟨s.block.ridx.val, h⟩ := rfl
  rw [exec_nextword_of_payload hp, Block.serve_of_buffered hcursor, Block.servedWord_of_buffered hcursor]
  rfl

/-- Settles O41: the cursor 256 asks for a refill, which leaves the cursor at 0. -/
theorem nextwordRefillsFirst : Obligations.NextwordRefillsFirst := by
  intro s hempty hp
  refine ⟨s.block.refill, s.block.refill_refillsTo, ?_⟩
  rw [exec_nextword_of_payload hp, Block.serve_of_empty hempty, Block.servedWord_of_empty hempty]

/-- Settles O42: one refill, then an induction on the number of words left in the buffer. -/
theorem nextwordsWalkTheBlock : Obligations.NextwordsWalkTheBlock :=
  fun _ b rest rs n hempty => ⟨b.refill, b.refill_refillsTo, run_nextwords_of_empty rest rs n hempty⟩

/-- Settles O43: `256 k` NEXTWORDs read out `k` blocks, and the next one runs the refill that follows. -/
theorem nextwordCountsBlocks : Obligations.NextwordCountsBlocks := by
  intro w b rest rs n k hempty hc
  refine ⟨fun i => Block.refill^[i] b, (b.outputStream k).map wordResponse, rfl,
    fun i _ => b.iterate_refill_refillsTo i, ?_, ?_, ?_⟩
  · rw [nextwords_add, List.append_assoc, run_add_of_run (run_nextwords_of_blocks _ rs n k hempty)]
    refine (run_succ_of_step (step_nextword_of_empty rest _ n rfl)).trans ?_
    rw [Block.refill_of_cursor, ← Function.iterate_succ_apply' Block.refill]
    rfl
  · rw [Block.iterate_refill_c, hc]
    exact BitVec.zero_add _
  · rw [List.length_map, Block.length_outputStream]

end Sys2Proof.Proofs

/-! # The exceptions family: the status of a response and what an error leaves (60_exceptions.md) -/

namespace Sys2Proof.Machine

/-! ## The illegal words by their bits (R205) -/

/-- The legal words are the three rows of the command table, and `IllegalBits` lists what lies outside them. -/
theorem exists_decode_eq_ok_iff (cmd : CommandWord) : (∃ i, decode cmd = .ok i) ↔ ¬ IllegalBits cmd := by
  simp only [decode_eq_ok_iff, IllegalBits, exists_or, exists_and_left, exists_eq, and_true]
  omega

theorem exists_decode_eq_error_iff (cmd : CommandWord) : (∃ e, decode cmd = .error e) ↔ IllegalBits cmd := by
  have hok := exists_decode_eq_ok_iff cmd
  cases hd : decode cmd with
  | ok i => exact iff_of_false (by simp) (hok.1 ⟨i, hd⟩)
  | error e => exact iff_of_true ⟨e, rfl⟩ (not_not.1 fun h => by simpa [hd] using hok.2 h)

/-! ## When a SEED, a REFILL and a NEXTWORD have each status -/

theorem seedStatus_eq_mismatch_iff {mlen rlen len : Nat} :
    seedStatus mlen rlen len = .payloadLengthMismatch ↔ len ≠ mlen + rlen := by
  unfold seedStatus expectedPayloadLength
  split_ifs with hl hr
  · exact iff_of_true rfl hl
  · exact iff_of_false (by decide) hl
  · exact iff_of_false (by decide) hl

theorem seedStatus_eq_invalid_iff {mlen rlen len : Nat} :
    seedStatus mlen rlen len = .invalidSeedConfiguration ↔ len = mlen + rlen ∧ rlen ≠ 0 ∧ rlen ≠ 8 := by
  unfold seedStatus expectedPayloadLength
  split_ifs with hl hr
  · exact iff_of_false (by decide) fun h => hl h.1
  · exact iff_of_true rfl ⟨not_not.1 hl, hr⟩
  · exact iff_of_false (by decide) fun h => hr h.2

theorem seedStatus_eq_ok_iff {mlen rlen len : Nat} :
    seedStatus mlen rlen len = .ok ↔ len = mlen + rlen ∧ (rlen = 0 ∨ rlen = 8) := by
  unfold seedStatus expectedPayloadLength
  split_ifs with hl hr
  · exact iff_of_false (by decide) fun h => hl h.1
  · exact iff_of_false (by decide) fun h => by omega
  · exact iff_of_true rfl ⟨not_not.1 hl, by omega⟩

theorem seedStatus_ne_illegal (mlen rlen len : Nat) : seedStatus mlen rlen len ≠ .illegalCommand := by
  unfold seedStatus
  split_ifs <;> decide

theorem refillStatus_eq_ite (len : Nat) : refillStatus len = if len = 0 then .ok else .payloadLengthMismatch :=
  ite_not ..

theorem nextwordStatus_eq_ite (len : Nat) : nextwordStatus len = if len = 0 then .ok else .payloadLengthMismatch :=
  ite_not ..

/-! ## The status of a response, by what the word decodes to and the payload's length (R202) -/

/-- The status of the response to a command with this decoding and a payload of `len` words: no other part of the
transaction and no field of the state enters it. -/
def answerStatus (d : Except Illegal Instr) (len : Nat) : Status :=
  match d with
  | .error _ => .illegalCommand
  | .ok (.seed mlen rlen) => seedStatus mlen rlen len
  | .ok .refill => refillStatus len
  | .ok .nextword => nextwordStatus len

theorem exec_status (i : Instr) (s : State) : ∃ (b : Block s.width) (r : Response s.width),
    exec i s = .next (s.answered b r) ∧ r.status = answerStatus (.ok i) s.payload.length := by
  cases i with
  | seed mlen rlen => exact ⟨_, _, (exec_seed_eq ..).trans (congrArg _ (State.finish_eq_answered ..)), rfl⟩
  | refill => exact ⟨_, _, (exec_refill_eq s).trans (congrArg _ (State.finish_eq_answered ..)), rfl⟩
  | nextword => exact ⟨_, _, (exec_nextword_eq s).trans (congrArg _ (State.finish_eq_answered ..)), rfl⟩

/-- A command, legal or not, is answered once, with the status `answerStatus` gives it. -/
theorem step_status {s : State} {t : Transaction s.width} (ht : s.takes t) :
    ∃ (b : Block s.width) (r : Response s.width),
      step s = .next (s.answered b r) ∧ r.status = answerStatus (decode t.cmd) t.payload.length := by
  cases hd : decode t.cmd with
  | ok i =>
    rw [step_decoded ht hd, ← State.payload_of_takes ht]
    exact exec_status i s
  | error e => exact ⟨_, _, step_illegal_eq_answered ht hd, rfl⟩

theorem answerStatus_eq_illegal_iff (d : Except Illegal Instr) (len : Nat) :
    answerStatus d len = .illegalCommand ↔ ∃ e, d = .error e := by
  match d with
  | .error e => simp [answerStatus]
  | .ok (.seed mlen rlen) => simp [answerStatus, seedStatus_ne_illegal]
  | .ok .refill => simp [answerStatus, refillStatus_eq_ite, ite_eq_iff]
  | .ok .nextword => simp [answerStatus, nextwordStatus_eq_ite, ite_eq_iff]

theorem answerStatus_eq_invalid_iff (d : Except Illegal Instr) (len : Nat) :
    answerStatus d len = .invalidSeedConfiguration ↔
      ∃ mlen rlen, d = .ok (.seed mlen rlen) ∧ len = mlen + rlen ∧ rlen ≠ 0 ∧ rlen ≠ 8 := by
  match d with
  | .error e => simp [answerStatus]
  | .ok (.seed mlen rlen) => simp [answerStatus, seedStatus_eq_invalid_iff]
  | .ok .refill => simp [answerStatus, refillStatus_eq_ite, ite_eq_iff]
  | .ok .nextword => simp [answerStatus, nextwordStatus_eq_ite, ite_eq_iff]

theorem answerStatus_eq_mismatch_iff (d : Except Illegal Instr) (len : Nat) :
    answerStatus d len = .payloadLengthMismatch ↔
      (∃ mlen rlen, d = .ok (.seed mlen rlen) ∧ len ≠ mlen + rlen) ∨
      ((d = .ok .refill ∨ d = .ok .nextword) ∧ len ≠ 0) := by
  match d with
  | .error e => simp [answerStatus]
  | .ok (.seed mlen rlen) => simp [answerStatus, seedStatus_eq_mismatch_iff]
  | .ok .refill => simp [answerStatus, refillStatus_eq_ite]
  | .ok .nextword => simp [answerStatus, nextwordStatus_eq_ite]

theorem answerStatus_eq_ok_iff (d : Except Illegal Instr) (len : Nat) :
    answerStatus d len = .ok ↔
      (∃ mlen rlen, d = .ok (.seed mlen rlen) ∧ len = mlen + rlen ∧ (rlen = 0 ∨ rlen = 8)) ∨
      ((d = .ok .refill ∨ d = .ok .nextword) ∧ len = 0) := by
  match d with
  | .error e => simp [answerStatus]
  | .ok (.seed mlen rlen) => simp [answerStatus, seedStatus_eq_ok_iff]
  | .ok .refill => simp [answerStatus, refillStatus_eq_ite]
  | .ok .nextword => simp [answerStatus, nextwordStatus_eq_ite]

/-- `RLEN` has four bits, so a decoded SEED turned away for its register count has it in 1..7 or 9..15 (R204). -/
theorem registerCount_invalid_iff {cmd : CommandWord} {mlen rlen : Nat} (hd : decode cmd = .ok (.seed mlen rlen)) :
    (rlen ≠ 0 ∧ rlen ≠ 8) ↔ ((1 ≤ rlen ∧ rlen ≤ 7) ∨ (9 ≤ rlen ∧ rlen ≤ 15)) := by
  obtain ⟨_, hr⟩ := Instr.wellFormed_seed.1 (wellFormed_of_decode hd)
  omega

end Sys2Proof.Machine

/-! ## The exceptions family settled -/

namespace Sys2Proof.Proofs

open Sys2Proof.Machine

/-- Settles O4: no decoded command has the status ILLEGAL_COMMAND, and the illegal words are the ones outside the three
rows of the command table. -/
theorem illegalWordsByBits : Obligations.IllegalWordsByBits := by
  intro s t ht
  obtain ⟨b, r, hstep, hr⟩ := step_status ht
  exact ⟨b, r, hstep, hr ▸ answerStatus_eq_illegal_iff _ _, exists_decode_eq_error_iff t.cmd⟩

/-- Settles O19: `answerStatus` checks in the order of the list. -/
theorem statusFollowsThePriorityList : Obligations.StatusFollowsThePriorityList := by
  intro s t ht
  obtain ⟨b, r, hstep, hr⟩ := step_status ht
  refine ⟨b, r, hstep, hr.trans ?_⟩
  match decode t.cmd with
  | .error _ => rfl
  | .ok (.seed _ _) => rfl
  | .ok .refill => rfl
  | .ok .nextword => rfl

/-- Settles O20: each status of `answerStatus` exactly under its condition; the bound 15 on `RLEN` is the decoder's. -/
theorem errorStatusesExactly : Obligations.ErrorStatusesExactly := by
  intro s t ht
  obtain ⟨b, r, hstep, hr⟩ := step_status ht
  refine ⟨b, r, hstep, ?_, hr ▸ answerStatus_eq_mismatch_iff _ _, hr ▸ answerStatus_eq_ok_iff _ _⟩
  rw [hr, answerStatus_eq_invalid_iff]
  exact exists₂_congr fun _ _ => and_congr_right fun hd => and_congr_right fun _ => registerCount_invalid_iff hd

/-- Settles O21: the step's one answer is the given one, and an answer that is not OK has no effects and no data. -/
theorem failingCommandChangesNothing : Obligations.FailingCommandChangesNothing := by
  intro s t b r ht hst hne
  obtain ⟨b', r', hstep, hkeep⟩ := step_command_eq_answered ht
  obtain ⟨rfl, rfl⟩ := State.answered_inj (Host.Outcome.next.inj (hst.symm.trans hstep))
  exact hkeep hne

/-- Settles O11: a port without inputs is the idle case of a step. -/
theorem idleStepHoldsState : Obligations.IdleStepHoldsState :=
  fun _ h => step_idle (State.nextInput_none.2 h)

/-- Settles O12, by everything a step can do: a decoded command is answered, and every other step names its next
state. -/
theorem stepNeverStops : Obligations.StepNeverStops := by
  intro s
  obtain ⟨_, hs⟩ | ⟨_, i, _, _, hs⟩ | ⟨_, _, _, _, hs⟩ | ⟨_, hs⟩ | ⟨_, hs⟩ := step_cases s
  · exact ⟨_, hs⟩
  · obtain ⟨b, r, he, _⟩ := exec_eq_answered i s
    exact ⟨_, hs.trans he⟩
  · exact ⟨_, hs⟩
  · exact ⟨_, hs⟩
  · exact ⟨_, hs⟩

/-- Settles O16: the reset block is the same whatever the power loss leaves. -/
theorem resetAfterPowerLoss : Obligations.ResetAfterPowerLoss := by
  intro w b rest rs n
  exact ⟨Block.afterPowerLoss w n, Block.reset w, step_powerLoss rfl, step_reset rfl, Block.reset_seedRecurrence w,
    by simp, by simp, by simp, by simp⟩

end Sys2Proof.Proofs

/-! # The reset family: the constructor, and a reset that cuts a command short (70_reset_and_hazards.md) -/

namespace Sys2Proof.Machine

variable {w : Width}

/-! ## The constructor (R231) -/

/-- With lists no longer than their fields, the constructor is the reset state with its one SEED waiting. -/
theorem State.construct_of_le {mem regs : List (Word w)} (hm : mem.length ≤ 256) (hr : regs.length ≤ 15) :
    State.construct w (some (mem, regs)) =
      some ((State.resetOf w).submit
        [{ cmd := encode (.seed mem.length regs.length), payload := mem ++ regs }]) :=
  congrArg (Option.map fun t => (State.resetOf w).submit [t]) (seedTransaction_of_le hm hr)

/-- After reset nothing waits, so a command the host then sends is the next one taken. -/
theorem State.resetOf_submit_takes (t : Transaction w) : ((State.resetOf w).submit [t]).takes t := rfl

/-- That command's response is the only one, and everything but the block and the port is that of reset. -/
theorem State.resetOf_submit_answered (t : Transaction w) (b : Block w) (r : Response w) :
    ((State.resetOf w).submit [t]).answered b r =
      { State.resetOf w with block := b, port := { pending := [], responses := [r] } } := rfl

/-- A SEED at the head of the port whose payload has the length it expects, and whose register count is not legal, is
turned away with the block as it was (60_exceptions.md R201, R204). -/
theorem step_seed_invalid {s : State} {t : Transaction s.width} {mlen rlen : Nat} (ht : s.takes t)
    (hd : decode t.cmd = .ok (.seed mlen rlen)) (hl : t.payload.length = mlen + rlen) (h0 : rlen ≠ 0) (h8 : rlen ≠ 8) :
    step s = .next (s.answered s.block { status := .invalidSeedConfiguration, data := [] }) := by
  have hstatus : seedStatus mlen rlen s.payload.length = .invalidSeedConfiguration :=
    seedStatus_invalid (State.payload_of_takes ht ▸ hl) h0 h8
  rw [step_decoded ht hd, exec_seed_of_status_ne_ok hstatus (by decide)]

end Sys2Proof.Machine

/-! ## The reset family settled -/

namespace Sys2Proof.Proofs

open Sys2Proof.Machine

/-- Settles O18: the assembled SEED decodes to its lists' lengths, so only its register count is wrong, and the block it
leaves is that of reset. -/
theorem constructorWithBadRegisters : Obligations.ConstructorWithBadRegisters := by
  intro w mem regs hm hr h0 h8
  exact ⟨_, State.construct_of_le hm hr,
    (step_seed_invalid (State.resetOf_submit_takes _) (decode_encode_seed hm hr) List.length_append h0 h8).trans
      (congrArg _ (State.resetOf_submit_answered _ _ _))⟩

/-- Settles O15: a step takes either reset as one operation on the state, which the command cut short does not enter. -/
theorem resetDuringCommandAbandonsIt : Obligations.ResetDuringCommandAbandonsIt := by
  intro w b t rest rs n
  have hstep : step ⟨w, b, ⟨.resetDuring t :: rest, rs⟩, n⟩ = .next ⟨w, Block.reset w, ⟨rest, rs⟩, n⟩ :=
    step_resetDuring rfl
  have hreset : step ⟨w, b, ⟨.reset :: rest, rs⟩, n⟩ = .next ⟨w, Block.reset w, ⟨rest, rs⟩, n⟩ := step_reset rfl
  exact ⟨hstep.trans hreset.symm, Block.reset w, hstep, Block.reset_seedRecurrence w,
    by simp, by simp, by simp, by simp⟩

end Sys2Proof.Proofs
